-- ==== Sys2Proof/Word.lean ====
section
/-! DEFINITION. The 12-bit word of the GS-CPU12 and the names of its eight general registers
(spec/00_scope.md R6, R8; spec/10_state.md R20, R21). -/

namespace Sys2Proof

/-- A word, an address and an instruction word are all 12 bits wide (R6, R8, R50).
Bit 11 is the most significant. -/
abbrev Word := BitVec 12

/-- The eight general registers (R20, R21). Aliases: `r0` = ZR, `r1` = AS, `r2` = AX, `r3` = BX,
`r4` = CX, `r5` = DX, `r6` = BP, `r7` = SP. The uses the aliases suggest are convention only. -/
inductive Reg where
  | r0 | r1 | r2 | r3 | r4 | r5 | r6 | r7
  deriving DecidableEq, Repr

/-- An interrupt number, 0 to 7: "There are 8 total interrupts" (R6, R251). -/
abbrev IrqNum := BitVec 3

end Sys2Proof
end

