-- ==== Sys2Proof/Config.lean ====
section
/-! DEFINITION. What the platform and the spec's own decisions fix for one machine (the parameter
tables of spec/00_scope.md R7 and spec/92_eei_decisions.md), the requests the CPU puts on its bus
(R36), and the FREE VALUES of the model: opaque constants that no proof can evaluate. -/

namespace Sys2Proof

/-- The two values of the parameter IMM12_SELECT (R85, R94): which first word of the ten opcodes
MV, EQ, LR, GR, ADD, SUB, RSB, AND, OR, XOR says that a 12-bit immediate word follows. -/
inductive Imm12Select where
  /-- Bit 7 = 1 and YYY = 000 (the spec's choice, R85, D1). -/
  | m1y0
  /-- Bit 7 = 0 and YYY = 000 (the alternative recorded in R94). -/
  | m0y0
  deriving DecidableEq, Repr

/-- A bus request as the CPU puts it out: the mode, the kind and the address (R12, R36). -/
structure BusRequest where
  /-- The mode qualifier: true in user mode. -/
  user : Bool
  /-- The kind qualifier: true for a code request, false for a data request. -/
  code : Bool
  /-- The 12-bit word address. -/
  addr : Word
  deriving DecidableEq, Repr

/-- One completed bus transfer: the request, its direction and the word on the data bus (R36, R53). -/
structure BusAccess where
  request : BusRequest
  /-- true for a write, false for a read. -/
  write : Bool
  data : Word
  deriving DecidableEq, Repr

/-- What a bus request reaches (R56). -/
inductive Target where
  /-- A memory cell: an index into the platform's storage. Two requests with the same cell see
  the same word. -/
  | cell (n : Nat)
  /-- A device register, answered by the parameter `Device`. -/
  | device (n : Nat)
  /-- Nothing answers: a read is a draw, a write has no effect (R56, D8). -/
  | nothing
  deriving DecidableEq, Repr

/-- One record of the platform's `BusMap`: the requests of one address space from `base` on,
`size` of them, and where the first of them goes (the others follow it one by one). -/
structure BusRegion where
  user : Bool
  code : Bool
  base : Nat
  size : Nat
  target : Target
  deriving DecidableEq, Repr

/-- The platform parameter `BusMap` (R56, D7) as plain data: the first region that holds a request
decides; a request that no region holds reaches a memory cell of its own (assumption 3). -/
abbrev BusMap := List BusRegion

/-- Parameter IMM12_SELECT at the value the spec decides (R85, D1; assumption 9). -/
def Config.imm12Select : Imm12Select := .m1y0

/-- Parameter CMP_SIGNED at the value the spec decides: LR and GR compare as unsigned words
(R170, D3; assumption 10). -/
def Config.cmpSigned : Bool := false

/-- FREE VALUE. The content of a memory cell that nothing has written yet (R40, R56, D13, U3;
assumption 4). -/
opaque Config.initialContent : Nat → Word

/-- FREE VALUE. The parameter `Device` (R55, R56, D8): what a device register answers to a read,
given the draw counter, all bus transfers so far, the device register and the request
(assumption 5). -/
opaque Config.deviceAnswer : Nat → List BusAccess → Nat → BusRequest → Word

/-- FREE VALUE. What a read of an address that nothing answers returns (R56, D8, U6;
assumption 5). -/
opaque Config.openBusAnswer : Nat → List BusAccess → BusRequest → Word

/-- FREE VALUE. Which of the words a fetch inside the prefetch window of R64 may deliver it does
deliver (D10, U5; assumption 6). -/
opaque Config.prefetchPick : Nat → Nat

/-- FREE VALUE. A general register after a reset request, given the draw counter, the bus transfers
so far, the register and its old value (R40, R262, D13; assumption 7). -/
opaque Config.resetRegister : Nat → List BusAccess → Reg → Word → Word

/-- FREE VALUE. UPC after a reset request (R40, R262, D13; assumption 7). -/
opaque Config.resetUpc : Nat → List BusAccess → Word → Word

/-- FREE VALUE. The memory after a reset request, as a list of cells to write, given also the old
memory (R40, R262, D13; assumption 7). -/
opaque Config.resetMemory : Nat → List BusAccess → List (Nat × Word) → List (Nat × Word)

end Sys2Proof
end

