-- ==== Sys2Proof/Syntax.lean ====
section
/-! DEFINITION. The instructions: one constructor for each of the 46 rows of spec/opcode_table.json
(R2, R80 to R86). The last letter of a name is the spec's format letter: R register form, S short
immediate, A address form with a second word, L ALU form with a second word. -/

namespace Sys2Proof

/-- An instruction in one operand form. `brk`, `reu` and `jru` are the three names of one family of
words (R111): which name a word has depends on the mode, and each of them, executed, does what R111
says its word does in the mode it is executed in. -/
inductive Instr where
  /-- REU, the word 0x000 under its machine-mode name (R112). -/
  | reu
  /-- BRK IMM3, the words 0x100 * n under their user-mode name (R110). -/
  | brk (n : IrqNum)
  /-- JRU RX, the words 0x100 * X, X not 0, under their machine-mode name (R113). -/
  | jru (x : Reg)
  /-- JZ RX, HIMM8, H not 0 (R114). -/
  | jz (x : Reg) (h : BitVec 8)
  /-- LW RX, RY: format R (R130). -/
  | lwR (x y : Reg)
  /-- LW RX, RY, IMM12: format A, two words (R131). -/
  | lwA (x y : Reg) (i : Word)
  /-- SW RX, RY: format R (R132). -/
  | swR (x y : Reg)
  /-- SW RX, RY, IMM12: format A, two words (R133). -/
  | swA (x y : Reg) (i : Word)
  /-- JR RX, RY: format R (R140). -/
  | jrR (x y : Reg)
  /-- JR RX, RY, IMM12: format A, two words (R141). -/
  | jrA (x y : Reg) (i : Word)
  /-- MV RX, RY: format R, Y not 0 (R150). -/
  | mvR (x y : Reg)
  /-- MV RX, SIMM3: format S, the raw 3-bit field (R151). -/
  | mvS (x : Reg) (y : BitVec 3)
  /-- MV RX, IMM12: format L, two words (R152). -/
  | mvL (x : Reg) (i : Word)
  /-- LSL RX, RY: format R (R161). -/
  | lslR (x y : Reg)
  /-- LSL RX, BIMM3: format S, the raw 3-bit field (R162). -/
  | lslS (x : Reg) (y : BitVec 3)
  /-- LSR RX, RY: format R (R163). -/
  | lsrR (x y : Reg)
  /-- LSR RX, BIMM3: format S, the raw 3-bit field (R164). -/
  | lsrS (x : Reg) (y : BitVec 3)
  /-- ASR RX, RY: format R (R165). -/
  | asrR (x y : Reg)
  /-- ASR RX, BIMM3: format S, the raw 3-bit field (R166). -/
  | asrS (x : Reg) (y : BitVec 3)
  /-- EQ RX, RY: format R, Y not 0 (R171). -/
  | eqR (x y : Reg)
  /-- EQ RX, SIMM3: format S, the raw 3-bit field (R172). -/
  | eqS (x : Reg) (y : BitVec 3)
  /-- EQ RX, IMM12: format L, two words (R173). -/
  | eqL (x : Reg) (i : Word)
  /-- LR RX, RY: format R, Y not 0 (R174). -/
  | lrR (x y : Reg)
  /-- LR RX, SIMM3: format S, the raw 3-bit field (R175). -/
  | lrS (x : Reg) (y : BitVec 3)
  /-- LR RX, IMM12: format L, two words (R176). -/
  | lrL (x : Reg) (i : Word)
  /-- GR RX, RY: format R, Y not 0 (R177). -/
  | grR (x y : Reg)
  /-- GR RX, SIMM3: format S, the raw 3-bit field (R178). -/
  | grS (x : Reg) (y : BitVec 3)
  /-- GR RX, IMM12: format L, two words (R179). -/
  | grL (x : Reg) (i : Word)
  /-- ADD RX, RY: format R, Y not 0 (R191). -/
  | addR (x y : Reg)
  /-- ADD RX, UIMM3: format S, the raw 3-bit field (R192). -/
  | addS (x : Reg) (y : BitVec 3)
  /-- ADD RX, IMM12: format L, two words (R193). -/
  | addL (x : Reg) (i : Word)
  /-- SUB RX, RY: format R, Y not 0 (R194). -/
  | subR (x y : Reg)
  /-- SUB RX, UIMM3: format S, the raw 3-bit field (R195). -/
  | subS (x : Reg) (y : BitVec 3)
  /-- SUB RX, IMM12: format L, two words (R196). -/
  | subL (x : Reg) (i : Word)
  /-- RSB RX, RY: format R, Y not 0 (R197). -/
  | rsbR (x y : Reg)
  /-- RSB RX, UIMM3: format S, the raw 3-bit field (R198). -/
  | rsbS (x : Reg) (y : BitVec 3)
  /-- RSB RX, IMM12: format L, two words (R199). -/
  | rsbL (x : Reg) (i : Word)
  /-- AND RX, RY: format R, Y not 0 (R211). -/
  | andR (x y : Reg)
  /-- AND RX, SIMM3: format S, the raw 3-bit field (R212). -/
  | andS (x : Reg) (y : BitVec 3)
  /-- AND RX, IMM12: format L, two words (R213). -/
  | andL (x : Reg) (i : Word)
  /-- OR RX, RY: format R, Y not 0 (R214). -/
  | orR (x y : Reg)
  /-- OR RX, SIMM3: format S, the raw 3-bit field (R215). -/
  | orS (x : Reg) (y : BitVec 3)
  /-- OR RX, IMM12: format L, two words (R216). -/
  | orL (x : Reg) (i : Word)
  /-- XOR RX, RY: format R, Y not 0 (R217). -/
  | xorR (x y : Reg)
  /-- XOR RX, SIMM3: format S, the raw 3-bit field (R218). -/
  | xorS (x : Reg) (y : BitVec 3)
  /-- XOR RX, IMM12: format L, two words (R219). -/
  | xorL (x : Reg) (i : Word)
  deriving DecidableEq, Repr

end Sys2Proof
end

