-- ==== Sys2Proof/WellFormed.lean ====
section
/-! DEFINITION. Which terms of `Instr` stand for an instruction word (the constraints of
spec/opcode_table.json, R82, R85, R94, R114), and which of the three names of the BRK words a mode
uses (R111). -/

namespace Sys2Proof

/-- Whether a format R instruction of the ten opcodes with a 12-bit immediate form can name
register `y` (R82, R93a; R94 for the other value of the parameter). -/
def regFormOk (sel : Imm12Select) (y : Reg) : Bool :=
  match sel with
  | .m1y0 => y != .r0
  | .m0y0 => true

/-- Whether a format S instruction of the same ten opcodes can hold the field `y` (R83; R94 for the
other value of the parameter, under which the short immediate 0 is not encodable). -/
def shortFormOk (sel : Imm12Select) (y : BitVec 3) : Bool :=
  match sel with
  | .m1y0 => true
  | .m0y0 => y != 0

/-- The instruction has an encoding of its own: JRU names no R0 (R113), JZ has a non-zero H (R114),
and the forms that IMM12_SELECT gives to the two-word form are left to it (R85, R94). -/
def Instr.wellFormed (sel : Imm12Select) (i : Instr) : Bool :=
  match i with
  | .reu => true
  | .brk _ => true
  | .jru x => x != .r0
  | .jz _ h => h != 0
  | .lwR _ _ => true
  | .lwA _ _ _ => true
  | .swR _ _ => true
  | .swA _ _ _ => true
  | .jrR _ _ => true
  | .jrA _ _ _ => true
  | .lslR _ _ => true
  | .lslS _ _ => true
  | .lsrR _ _ => true
  | .lsrS _ _ => true
  | .asrR _ _ => true
  | .asrS _ _ => true
  | .mvR _ y => regFormOk sel y
  | .mvS _ y => shortFormOk sel y
  | .mvL _ _ => true
  | .eqR _ y => regFormOk sel y
  | .eqS _ y => shortFormOk sel y
  | .eqL _ _ => true
  | .lrR _ y => regFormOk sel y
  | .lrS _ y => shortFormOk sel y
  | .lrL _ _ => true
  | .grR _ y => regFormOk sel y
  | .grS _ y => shortFormOk sel y
  | .grL _ _ => true
  | .addR _ y => regFormOk sel y
  | .addS _ y => shortFormOk sel y
  | .addL _ _ => true
  | .subR _ y => regFormOk sel y
  | .subS _ y => shortFormOk sel y
  | .subL _ _ => true
  | .rsbR _ y => regFormOk sel y
  | .rsbS _ y => shortFormOk sel y
  | .rsbL _ _ => true
  | .andR _ y => regFormOk sel y
  | .andS _ y => shortFormOk sel y
  | .andL _ _ => true
  | .orR _ y => regFormOk sel y
  | .orS _ y => shortFormOk sel y
  | .orL _ _ => true
  | .xorR _ y => regFormOk sel y
  | .xorS _ y => shortFormOk sel y
  | .xorL _ _ => true

/-- The name fits the mode: BRK is the name of its words in user mode, REU and JRU are their names in
machine mode, and every other instruction has one name in both modes (R111, R253). -/
def Instr.namedIn (user : Bool) (i : Instr) : Bool :=
  match i with
  | .reu => !user
  | .brk _ => user
  | .jru _ => !user
  | .jz _ _ => true
  | .lwR _ _ => true
  | .lwA _ _ _ => true
  | .swR _ _ => true
  | .swA _ _ _ => true
  | .jrR _ _ => true
  | .jrA _ _ _ => true
  | .lslR _ _ => true
  | .lslS _ _ => true
  | .lsrR _ _ => true
  | .lsrS _ _ => true
  | .asrR _ _ => true
  | .asrS _ _ => true
  | .mvR _ _ => true
  | .mvS _ _ => true
  | .mvL _ _ => true
  | .eqR _ _ => true
  | .eqS _ _ => true
  | .eqL _ _ => true
  | .lrR _ _ => true
  | .lrS _ _ => true
  | .lrL _ _ => true
  | .grR _ _ => true
  | .grS _ _ => true
  | .grL _ _ => true
  | .addR _ _ => true
  | .addS _ _ => true
  | .addL _ _ => true
  | .subR _ _ => true
  | .subS _ _ => true
  | .subL _ _ => true
  | .rsbR _ _ => true
  | .rsbS _ _ => true
  | .rsbL _ _ => true
  | .andR _ _ => true
  | .andS _ _ => true
  | .andL _ _ => true
  | .orR _ _ => true
  | .orS _ _ => true
  | .orL _ _ => true
  | .xorR _ _ => true
  | .xorS _ _ => true
  | .xorL _ _ => true

end Sys2Proof
end

