-- ==== Sys2Proof/Decode.lean ====
section
/-! DEFINITION. Decoding (spec/30_encoding.md R80 to R94) and, after it, the encoder written from
the same tables. Decoding a stream of words is total: it answers an instruction and the words left
over, or names why it cannot (a stream that ends too early). No word is illegal (R91). -/

namespace Sys2Proof

/-- Register number to register (R13, R20). -/
def Reg.ofBits (b : BitVec 3) : Reg :=
  match b.toNat with
  | 0 => .r0
  | 1 => .r1
  | 2 => .r2
  | 3 => .r3
  | 4 => .r4
  | 5 => .r5
  | 6 => .r6
  | _ => .r7

/-- Register to register number (R20). -/
def Reg.bits : Reg → BitVec 3
  | .r0 => 0
  | .r1 => 1
  | .r2 => 2
  | .r3 => 3
  | .r4 => 4
  | .r5 => 5
  | .r6 => 6
  | .r7 => 7

/-- `X = w[10:8]` (R13). -/
def fieldX (w : Word) : BitVec 3 := w.extractLsb' 8 3

/-- `M = w[7]` (R13). -/
def fieldM (w : Word) : Bool := w.getLsbD 7

/-- `Y = w[6:4]` (R13). -/
def fieldY (w : Word) : BitVec 3 := w.extractLsb' 4 3

/-- `OP = w[3:0]` (R13). -/
def fieldOp (w : Word) : BitVec 4 := w.extractLsb' 0 4

/-- `H = w[7:0]` (R13). -/
def fieldH (w : Word) : BitVec 8 := w.extractLsb' 0 8

/-- Bit 11, which splits the encoding space (R80). -/
def fieldTop (w : Word) : Bool := w.getLsbD 11

/-- Whether the fields M and Y of one of the ten opcodes with a format L select it (R85, R94). -/
def longSelected (sel : Imm12Select) (m : Bool) (y : BitVec 3) : Bool :=
  match sel with
  | .m1y0 => m && y == 0
  | .m0y0 => !m && y == 0

/-- The length in words of the instruction whose first word is `w` (R88). -/
def instrLen (sel : Imm12Select) (w : Word) : Nat :=
  if fieldTop w then
    match (fieldOp w).toNat with
    | 0 | 1 | 2 => if fieldM w then 1 else 2
    | 4 | 5 | 6 => 1
    | _ => if longSelected sel (fieldM w) (fieldY w) then 2 else 1
  else 1

/-- The form of one of the ten opcodes that have formats R, S and L (last branch of R87; R94). -/
def aluForm (sel : Imm12Select) (m : Bool) (x y : BitVec 3) (imm : Word)
    (formR : Reg → Reg → Instr) (formS : Reg → BitVec 3 → Instr) (formL : Reg → Word → Instr) :
    Instr :=
  if longSelected sel m y then formL (Reg.ofBits x) imm
  else if m then formR (Reg.ofBits x) (Reg.ofBits y)
  else formS (Reg.ofBits x) y

/-- The form of LW, SW or JR: M = 1 is format R, M = 0 is format A (R82, R84, R87). -/
def addrForm (m : Bool) (x y : BitVec 3) (imm : Word)
    (formR : Reg → Reg → Instr) (formA : Reg → Reg → Word → Instr) : Instr :=
  if m then formR (Reg.ofBits x) (Reg.ofBits y) else formA (Reg.ofBits x) (Reg.ofBits y) imm

/-- The form of LSL, LSR or ASR: M = 1 is format R, M = 0 is format S (R82, R83, R87). -/
def shiftForm (m : Bool) (x y : BitVec 3)
    (formR : Reg → Reg → Instr) (formS : Reg → BitVec 3 → Instr) : Instr :=
  if m then formR (Reg.ofBits x) (Reg.ofBits y) else formS (Reg.ofBits x) y

/-- The BRK word with field X, under the name the mode gives it (R111). -/
def brkForm (user : Bool) (x : BitVec 3) : Instr :=
  if user then .brk x else if x = 0 then .reu else .jru (Reg.ofBits x)

/-- The decoding algorithm of R87. `imm` is the following word, used only by the two-word forms. -/
def decodeWords (sel : Imm12Select) (user : Bool) (w imm : Word) : Instr :=
  let x := fieldX w
  let m := fieldM w
  let y := fieldY w
  if fieldTop w then
    match (fieldOp w).toNat with
    | 0 => addrForm m x y imm .lwR .lwA
    | 1 => addrForm m x y imm .swR .swA
    | 2 => addrForm m x y imm .jrR .jrA
    | 3 => aluForm sel m x y imm .mvR .mvS .mvL
    | 4 => shiftForm m x y .lslR .lslS
    | 5 => shiftForm m x y .lsrR .lsrS
    | 6 => shiftForm m x y .asrR .asrS
    | 7 => aluForm sel m x y imm .eqR .eqS .eqL
    | 8 => aluForm sel m x y imm .lrR .lrS .lrL
    | 9 => aluForm sel m x y imm .grR .grS .grL
    | 10 => aluForm sel m x y imm .addR .addS .addL
    | 11 => aluForm sel m x y imm .subR .subS .subL
    | 12 => aluForm sel m x y imm .rsbR .rsbS .rsbL
    | 13 => aluForm sel m x y imm .andR .andS .andL
    | 14 => aluForm sel m x y imm .orR .orS .orL
    | _ => aluForm sel m x y imm .xorR .xorS .xorL
  else if fieldH w = 0 then brkForm user x
  else .jz (Reg.ofBits x) (fieldH w)

/-- Why a stream of words holds no instruction. Both are safe: the stream ends too early, and no word
of it is refused (R91). -/
inductive DecodeError where
  /-- There is no word to decode. -/
  | noWord
  /-- The first word is that of a two-word instruction and no word follows it. -/
  | noImmediate
  deriving DecidableEq, Repr

/-- Decode the instruction at the head of a stream of words: the instruction and the words after it. -/
def decode (sel : Imm12Select) (user : Bool) (ws : List Word) :
    Except DecodeError (Instr × List Word) :=
  match ws with
  | [] => .error .noWord
  | w :: rest =>
    if instrLen sel w = 1 then .ok (decodeWords sel user w 0, rest)
    else
      match rest with
      | [] => .error .noImmediate
      | imm :: rest' => .ok (decodeWords sel user w imm, rest')

/-- A format B word: `0x100*X + H` (R81, R86). -/
def encodeB (x : BitVec 3) (h : BitVec 8) : Word :=
  BitVec.ofNat 12 (0x100 * x.toNat + h.toNat)

/-- The first word of an instruction of the 16-opcode space: `0x800 + 0x100*X + 0x080*M + 0x010*Y + OP`
(R82 to R86). -/
def encodeOp (x : BitVec 3) (m : Bool) (y : BitVec 3) (op : BitVec 4) : Word :=
  BitVec.ofNat 12 (0x800 + 0x100 * x.toNat + 0x080 * m.toNat + 0x010 * y.toNat + op.toNat)

/-- Format R (R82). -/
def encodeR (op : BitVec 4) (x y : Reg) : List Word := [encodeOp x.bits true y.bits op]

/-- Format S (R83). -/
def encodeS (op : BitVec 4) (x : Reg) (y : BitVec 3) : List Word := [encodeOp x.bits false y op]

/-- Format A (R84). -/
def encodeA (op : BitVec 4) (x y : Reg) (i : Word) : List Word :=
  [encodeOp x.bits false y.bits op, i]

/-- Format L (R85, R94). -/
def encodeL (sel : Imm12Select) (op : BitVec 4) (x : Reg) (i : Word) : List Word :=
  [encodeOp x.bits (sel == .m1y0) 0 op, i]

/-- The words of a well-formed instruction, first word first (R80 to R86). -/
def encode (sel : Imm12Select) (i : Instr) : List Word :=
  match i with
  | .reu => [encodeB 0 0]
  | .brk n => [encodeB n 0]
  | .jru x => [encodeB x.bits 0]
  | .jz x h => [encodeB x.bits h]
  | .lwR x y => encodeR 0 x y
  | .lwA x y i => encodeA 0 x y i
  | .swR x y => encodeR 1 x y
  | .swA x y i => encodeA 1 x y i
  | .jrR x y => encodeR 2 x y
  | .jrA x y i => encodeA 2 x y i
  | .mvR x y => encodeR 3 x y
  | .mvS x y => encodeS 3 x y
  | .mvL x i => encodeL sel 3 x i
  | .lslR x y => encodeR 4 x y
  | .lslS x y => encodeS 4 x y
  | .lsrR x y => encodeR 5 x y
  | .lsrS x y => encodeS 5 x y
  | .asrR x y => encodeR 6 x y
  | .asrS x y => encodeS 6 x y
  | .eqR x y => encodeR 7 x y
  | .eqS x y => encodeS 7 x y
  | .eqL x i => encodeL sel 7 x i
  | .lrR x y => encodeR 8 x y
  | .lrS x y => encodeS 8 x y
  | .lrL x i => encodeL sel 8 x i
  | .grR x y => encodeR 9 x y
  | .grS x y => encodeS 9 x y
  | .grL x i => encodeL sel 9 x i
  | .addR x y => encodeR 10 x y
  | .addS x y => encodeS 10 x y
  | .addL x i => encodeL sel 10 x i
  | .subR x y => encodeR 11 x y
  | .subS x y => encodeS 11 x y
  | .subL x i => encodeL sel 11 x i
  | .rsbR x y => encodeR 12 x y
  | .rsbS x y => encodeS 12 x y
  | .rsbL x i => encodeL sel 12 x i
  | .andR x y => encodeR 13 x y
  | .andS x y => encodeS 13 x y
  | .andL x i => encodeL sel 13 x i
  | .orR x y => encodeR 14 x y
  | .orS x y => encodeS 14 x y
  | .orL x i => encodeL sel 14 x i
  | .xorR x y => encodeR 15 x y
  | .xorS x y => encodeS 15 x y
  | .xorL x i => encodeL sel 15 x i

/-- The instruction the decoder reads from an opcode-table row's bits: bit 0 of `w` is the least
significant bit of the first word, the second word is bits 23..12, and every bit from `nbits` up is 0.
The table's words are read as the machine reads them right after reset, in machine mode (R40), where
the BRK words have the names REU and JRU (R111; assumption 8). -/
def decodeTableWord (nbits w : Nat) : Option Instr :=
  let bits := w % 2 ^ nbits
  match decode Config.imm12Select false [BitVec.ofNat 12 bits, BitVec.ofNat 12 (bits / 4096)] with
  | .ok (i, _) => some i
  | .error _ => none

end Sys2Proof
end

