-- ==== Sys2Proof/Machine/State.lean ====
section
/-! DEFINITION. The state of one GS-CPU12 core with its bus and its inputs, as plain data
(spec/10_state.md R20 to R40, spec/20_memory.md R56, R64, spec/60_exceptions.md R258, R272), the
reasons a step can stop, and the state right after reset. -/

namespace Sys2Proof.Machine

/-- Storage behind the bus: the cells written so far with the words they hold, cell numbers strictly
rising. A cell that is not listed has never been written and holds no known word (assumptions 1, 4). -/
abbrev Memory := List (Nat × Word)

/-- The storage of the general registers (R20). R0 is hardwired to zero and has none (R22). -/
structure Regs where
  r1 : Word
  r2 : Word
  r3 : Word
  r4 : Word
  r5 : Word
  r6 : Word
  r7 : Word
  deriving DecidableEq, Repr

/-- The machine: the registers the spec names, the storage behind the bus, the platform's wiring, the
interrupt input, and the model's own bookkeeping of the bus. -/
structure State where
  /-- R1 to R7 (R20 to R23). -/
  regs : Regs
  /-- PC: the address of the first word of the instruction to execute (R24). -/
  pc : Word
  /-- UPC, also RA: the user-mode address to return to (R28). -/
  upc : Word
  /-- The mode bit USER of IR: true in user mode, false in machine mode (R30). -/
  user : Bool
  /-- What the memory cells behind the bus hold (R36, R56). -/
  mem : Memory
  /-- The platform parameter BusMap (R56, D7): which requests share a cell, reach a device or reach
  nothing. No step changes it. -/
  bus : BusMap
  /-- The environment input IrqInput (R258): the requests present at each coming instruction
  boundary, one entry a boundary, bit n standing for irq n. No entry left means no request. -/
  irqInput : List (BitVec 8)
  /-- The prefetch window of R64: a code address among the next two, with a word its fetch may still
  deliver though a store has replaced it. -/
  stale : List (Word × Word)
  /-- Every bus transfer so far, the latest first (R36, R53, R272). -/
  busLog : List BusAccess
  /-- How many free values have been drawn (the model's own counter). -/
  draws : Nat
  deriving DecidableEq, Repr

/-- The faults of the machine: none. "Nothing in this machine is treated as `fault` or `stuck`"
(spec/93_implementation_defined.md): the CPU has no illegal-instruction, alignment, bus or privilege
exception (R91, R250), and its only traps are entered, not stopped on. Safe: nothing raises one. -/
inductive Fault where
  deriving DecidableEq, Repr

/-- The refusals of the model. -/
inductive Refusal where
  /-- Raised by an arm of `exec` for an instruction that has no meaning yet. No arm raises it now.
  Safe: the model says nothing about the instruction. -/
  | notModelled (mnemonic : String)
  deriving DecidableEq, Repr

/-- Right after reset (R40, R262, R290): PC is 0x000 and the mode is machine mode. The spec gives no
value for R1 to R7 and UPC: 0x000 here (assumption 2). Nothing is written in memory (assumption 4), the
bus has its default map (assumption 3), no interrupt request is coming (assumption 11), and nothing has
happened on the bus (assumption 17). -/
def State.reset : State where
  regs := ⟨0, 0, 0, 0, 0, 0, 0⟩
  pc := 0x000
  upc := 0x000
  user := false
  mem := []
  bus := []
  irqInput := []
  stale := []
  busLog := []
  draws := 0

end Sys2Proof.Machine
end

