-- ==== Sys2Proof/Machine/Ops.lean ====
section
/-! DEFINITION. The named operations over the state: memory cells, the bus, the registers, the program
counter, taking a trap and returning from one, a reset request, and the interrupt input. -/

namespace Sys2Proof.Machine

/-! ### Memory cells (R56) -/

/-- The canonical form: cell numbers strictly rising. An unlisted cell reads as no word, so no entry
equals what an unlisted cell reads as. -/
abbrev Memory.wf (m : Memory) : Prop := m.Pairwise (fun a b => a.1 < b.1)

/-- The word last written to a cell; `none` if nothing has written it. -/
def Memory.read (m : Memory) (n : Nat) : Option Word :=
  match m with
  | [] => none
  | (k, v) :: rest => if k = n then some v else Memory.read rest n

/-- Replace the word of a cell, keeping the canonical form. -/
def Memory.write (m : Memory) (n : Nat) (v : Word) : Memory :=
  match m with
  | [] => [(n, v)]
  | (k, u) :: rest =>
    if n < k then (n, v) :: (k, u) :: rest
    else if n = k then (n, v) :: rest
    else (k, u) :: Memory.write rest n v

/-- The memory that holds exactly what a list of writes leaves, the first of the list last. -/
def Memory.ofWrites (ws : List (Nat × Word)) : Memory :=
  match ws with
  | [] => []
  | (n, v) :: rest => Memory.write (Memory.ofWrites rest) n v

/-! ### The bus map (R36, R56) -/

/-- The region holds the request. -/
def regionHolds (g : BusRegion) (q : BusRequest) : Bool :=
  g.user == q.user && g.code == q.code && decide (g.base ≤ q.addr.toNat) &&
    decide (q.addr.toNat < g.base + g.size)

/-- The k-th target after a region's first. -/
def shiftTarget (t : Target) (k : Nat) : Target :=
  match t with
  | .cell n => .cell (n + k)
  | .device n => .device (n + k)
  | .nothing => .nothing

/-- The cell of a request that no region holds: each of the four address spaces of R36 has 4096 cells
of its own (assumption 3). -/
def homeCell (q : BusRequest) : Nat :=
  (if q.user then 8192 else 0) + (if q.code then 4096 else 0) + q.addr.toNat

/-- What a request reaches (R56): the first region that holds it decides. -/
def busTarget (m : BusMap) (q : BusRequest) : Target :=
  match m.find? (fun g => regionHolds g q) with
  | some g => shiftTarget g.target (q.addr.toNat - g.base)
  | none => .cell (homeCell q)

/-! ### Bus transfers (R12, R53 to R56, R60) -/

/-- The word a memory cell holds: the one most recently written to it, or its initial content, a free
value (R56, assumption 4). -/
def State.cellWord (s : State) (n : Nat) : Word :=
  (s.mem.read n).getD (Config.initialContent n)

/-- A code request in the current mode (R12, R36). -/
def State.codeRequest (s : State) (a : Word) : BusRequest := ⟨s.user, true, a⟩

/-- A data request in the current mode (R12, R36). -/
def State.dataRequest (s : State) (a : Word) : BusRequest := ⟨s.user, false, a⟩

/-- What `Bus.read` returns (R12, R56): a cell's word, a device's answer, or a draw where nothing
answers. -/
def State.busAnswer (s : State) (q : BusRequest) : Word :=
  match busTarget s.bus q with
  | .cell n => s.cellWord n
  | .device n => Config.deviceAnswer s.draws s.busLog n q
  | .nothing => Config.openBusAnswer s.draws s.busLog q

/-- The draw counter after a read: a cell's word is no draw. -/
def State.drawsAfterRead (s : State) (q : BusRequest) : Nat :=
  match busTarget s.bus q with
  | .cell _ => s.draws
  | .device _ => s.draws + 1
  | .nothing => s.draws + 1

/-- The state after a bus read that delivered `v` (R36, R53). -/
def State.afterRead (s : State) (q : BusRequest) (v : Word) : State :=
  { s with draws := s.drawsAfterRead q, busLog := ⟨q, false, v⟩ :: s.busLog }

/-- `Bus.write` (R12, R56): a cell takes the word; a device accepts it, which only its later answers
show; nothing else has an effect. -/
def State.busWrite (s : State) (q : BusRequest) (v : Word) : State :=
  { s with
    mem := match busTarget s.bus q with
      | .cell n => s.mem.write n v
      | .device _ => s.mem
      | .nothing => s.mem
    busLog := ⟨q, true, v⟩ :: s.busLog }

/-- `MemRead(a, 1)` (R12): the word a data read in the current mode delivers. -/
def State.memRead (s : State) (a : Word) : Word := s.busAnswer (s.dataRequest a)

/-- The state after `MemRead(a, 1)`. -/
def State.afterMemRead (s : State) (a : Word) : State := s.afterRead (s.dataRequest a) (s.memRead a)

/-- `MemWrite(a, 1, v)` (R12). -/
def State.memWrite (s : State) (a v : Word) : State := s.busWrite (s.dataRequest a) v

/-! ### General registers (R20 to R23) -/

/-- `x[i]`: R0 reads 0x000 (R22). -/
def State.getReg (s : State) (r : Reg) : Word :=
  match r with
  | .r0 => 0x000
  | .r1 => s.regs.r1
  | .r2 => s.regs.r2
  | .r3 => s.regs.r3
  | .r4 => s.regs.r4
  | .r5 => s.regs.r5
  | .r6 => s.regs.r6
  | .r7 => s.regs.r7

/-- `x[i] <- v`: a write to R0 is discarded (R22, D5). -/
def State.setReg (s : State) (r : Reg) (v : Word) : State :=
  match r with
  | .r0 => s
  | .r1 => { s with regs := { s.regs with r1 := v } }
  | .r2 => { s with regs := { s.regs with r2 := v } }
  | .r3 => { s with regs := { s.regs with r3 := v } }
  | .r4 => { s with regs := { s.regs with r4 := v } }
  | .r5 => { s with regs := { s.regs with r5 := v } }
  | .r6 => { s with regs := { s.regs with r6 := v } }
  | .r7 => { s with regs := { s.regs with r7 := v } }

/-! ### The program counter and the prefetch window (R11, R24 to R26, R64) -/

/-- `next`: the address after an instruction of `len` words, modulo 4096 (R10, R26). -/
def State.next (s : State) (len : Word) : Word := s.pc + len

/-- `pc <- next`. Of the words the pipeline may have fetched before a store replaced them, only that of
the following instruction's first word can still be delivered (R64). -/
def State.advance (s : State) (len : Word) : State :=
  { s with pc := s.next len, stale := s.stale.filter (fun e => e.1 == s.next len) }

/-- `pc <- t`, a taken control transfer: every later fetch sees the stored words (R25, R64). -/
def State.jump (s : State) (t : Word) : State := { s with pc := t, stale := [] }

/-- The words of the two code addresses after a store that the store replaces, with the old words
(R64, D10): the pipeline may have fetched them already. -/
def State.overtaken (s : State) (q : BusRequest) (next : Word) : List (Word × Word) :=
  match busTarget s.bus q with
  | .cell n =>
    ([next, next + 1].filter (fun a => busTarget s.bus (s.codeRequest a) == .cell n)).map
      (fun a => (a, s.cellWord n))
  | .device _ => []
  | .nothing => []

/-- The words a fetch from `a` may still deliver though a store has replaced them (R64). -/
def State.staleWords (s : State) (a : Word) : List Word :=
  (s.stale.filter (fun e => e.1 == a)).map (fun e => e.2)

/-! ### Shared effects of the instruction families -/

/-- The end of an instruction that writes `v` to register X and falls through (R25). -/
def State.writeBack (s : State) (x : Reg) (v len : Word) : State := (s.setReg x v).advance len

/-- A load of register X from data address `a` (R130, R131): the read is performed even when X is R0,
and registers are read before register X is written (R22, R23). -/
def State.load (s : State) (x : Reg) (a len : Word) : State :=
  ((s.afterMemRead a).setReg x (s.memRead a)).advance len

/-- A store of register X to data address `a` (R132, R133), with the prefetch window it opens (R64). -/
def State.store (s : State) (x : Reg) (a len : Word) : State :=
  let t := (s.memWrite a (s.getReg x)).advance len
  { t with stale := t.stale ++ s.overtaken (s.dataRequest a) (s.next len) }

/-- A jump to `t` that leaves the address after the instruction in register X (R140, R141); `t` is
computed before register X is written. -/
def State.jumpAndLink (s : State) (x : Reg) (t len : Word) : State :=
  (s.setReg x (s.next len)).jump t

/-! ### Traps (R250 to R264) -/

/-- The address of vector slot n, `8 * n` in machine-mode code space (R251, R57). -/
def vectorAddress (n : IrqNum) : Word := n.setWidth 12 * 8

/-- TAKING A TRAP: `Break(n, ret)` of R254, the only trap entry of the hardware. UPC saves the return
address, the mode becomes machine mode, and the next instruction is fetched from the vector slot. Nothing
else is saved or changed (R252). -/
def State.takeBreak (s : State) (n : IrqNum) (ret : Word) : State :=
  { s with upc := ret, user := false, pc := vectorAddress n, stale := [] }

/-- RETURNING FROM A TRAP: BRK executed in machine mode enters user mode at `t` (R263); UPC is
unchanged (R28, D14). -/
def State.returnToUser (s : State) (t : Word) : State :=
  { s with user := true, pc := t, stale := [] }

/-- What the word `0XXX 0000 0000` does when it executes (R111): in user mode it is BRK IMM3 (R110); in
machine mode it is REU where X is 0 (R112) and JRU RX otherwise (R113). -/
def State.breakWord (s : State) (x : IrqNum) : State :=
  if s.user then s.takeBreak x (s.next 1)
  else if x = 0 then s.returnToUser s.upc
  else s.returnToUser (s.getReg (Reg.ofBits x))

/-- A reset request, irq 0 (R262): PC and the mode as after reset; every other piece of architectural
state takes an unspecified value (R40), here a free value (assumption 7). The platform's wiring, its
inputs and the record of the bus are not state of the CPU and stay. -/
def State.takeReset (s : State) : State :=
  { s with
    regs :=
      { r1 := Config.resetRegister s.draws s.busLog .r1 s.regs.r1
        r2 := Config.resetRegister s.draws s.busLog .r2 s.regs.r2
        r3 := Config.resetRegister s.draws s.busLog .r3 s.regs.r3
        r4 := Config.resetRegister s.draws s.busLog .r4 s.regs.r4
        r5 := Config.resetRegister s.draws s.busLog .r5 s.regs.r5
        r6 := Config.resetRegister s.draws s.busLog .r6 s.regs.r6
        r7 := Config.resetRegister s.draws s.busLog .r7 s.regs.r7 }
    pc := 0x000
    upc := Config.resetUpc s.draws s.busLog s.upc
    user := false
    mem := Memory.ofWrites (Config.resetMemory s.draws s.busLog s.mem)
    stale := []
    draws := s.draws + 1 }

/-! ### The interrupt input (R255 to R261) -/

/-- The highest-priority request present at a boundary: the one with the lowest number (R261). -/
def highestRequest (requests : BitVec 8) : Option IrqNum :=
  ([0, 1, 2, 3, 4, 5, 6, 7] : List IrqNum).find? (fun n => requests.getLsbD n.toNat)

/-- What happens at an instruction boundary (R255 to R259, R262). -/
inductive Boundary where
  /-- The instruction at PC executes. -/
  | execute
  /-- An external interrupt displaces it. -/
  | interrupt (n : IrqNum)
  /-- A reset request displaces it. -/
  | reset
  deriving DecidableEq, Repr

/-- Irq 0 is reset, taken in either mode (R262); irq 1 to 7 are taken in user mode only (R257, R259). -/
def boundaryOf (user : Bool) (requests : BitVec 8) : Boundary :=
  match highestRequest requests with
  | none => .execute
  | some n => if n = 0 then .reset else if user then .interrupt n else .execute

/-- What the boundary the state stands at brings. -/
def State.boundary (s : State) : Boundary := boundaryOf s.user (s.irqInput.headD 0)

/-- The state with this boundary's input consumed (R258). -/
def State.passBoundary (s : State) : State := { s with irqInput := s.irqInput.tail }

end Sys2Proof.Machine
end

