-- ==== Sys2Proof/Machine/Operands.lean ====
section
/-! DEFINITION. The operand forms (R89, R90, R160): the immediates and how each is widened to a word,
the shift amounts, and the three shifts. -/

namespace Sys2Proof.Machine

/-- SIMM3: the 3-bit field sign-extended, -4 to 3 (R89). -/
def simm3 (y : BitVec 3) : Word := y.signExtend 12

/-- UIMM3: the 3-bit field zero-extended, 0 to 7 (R89). -/
def uimm3 (y : BitVec 3) : Word := y.setWidth 12

/-- BIMM3: the shift amount of the field, 1 to 7, and 8 for the field 0 (R89). -/
def bimm3 (y : BitVec 3) : Nat := if y = 0 then 8 else y.toNat

/-- SIMM8: the 8-bit field sign-extended (R89). -/
def simm8 (h : BitVec 8) : Word := h.signExtend 12

/-- The shift amount of the register forms: the low four bits of register Y (R160). -/
def shiftAmount (v : Word) : Nat := (v.extractLsb' 0 4).toNat

/-- `v << n` (R160). -/
def shiftLeft (v : Word) (n : Nat) : Word := v <<< n

/-- `v >>u n` (R160). -/
def shiftRight (v : Word) (n : Nat) : Word := v >>> n

/-- `v >>s n` (R160). -/
def shiftRightArith (v : Word) (n : Nat) : Word := v.sshiftRight n

/-- The effective address of formats R and A: register Y, plus the immediate word modulo 4096
(R59, R84). -/
def State.address (s : State) (y : Reg) (i : Word) : Word := s.getReg y + i

end Sys2Proof.Machine
end

