-- ==== Sys2Proof/Machine/Flags.lean ====
section
/-! DEFINITION. The hardware has no flags (R27). A comparison writes its result into a register:
these are the comparisons and that result (R170). -/

namespace Sys2Proof.Machine

/-- `b ? 0x001 : 0x000` (R27, R171). -/
def truthWord (b : Bool) : Word := if b then 0x001 else 0x000

/-- "Equal": all 12 bits are compared (R171). -/
def wordEq (a b : Word) : Bool := a == b

/-- "Less than", unsigned while CMP_SIGNED is false (R170). -/
def wordLess (a b : Word) : Bool := if Config.cmpSigned then a.slt b else a.ult b

/-- "Greater than", unsigned while CMP_SIGNED is false (R170). -/
def wordGreater (a b : Word) : Bool := wordLess b a

end Sys2Proof.Machine
end

