-- ==== Sys2Proof/Machine/Arithmetic.lean ====
section
/-! DEFINITION. Arithmetic modulo 4096: ADD, SUB, RSB (spec/46_arithmetic.md R190 to R200). -/

namespace Sys2Proof.Machine

/-- ADD RX, RY (R191). -/
def execAddR (x y : Reg) (s : State) : Host.Outcome State Fault Refusal :=
  .next (s.writeBack x (s.getReg x + (s.getReg y)) 1)

/-- ADD RX, UIMM3 (R192). -/
def execAddS (x : Reg) (y : BitVec 3) (s : State) : Host.Outcome State Fault Refusal :=
  .next (s.writeBack x (s.getReg x + (uimm3 y)) 1)

/-- ADD RX, IMM12 (R193). -/
def execAddL (x : Reg) (i : Word) (s : State) : Host.Outcome State Fault Refusal :=
  .next (s.writeBack x (s.getReg x + i) 2)

/-- SUB RX, RY (R194). -/
def execSubR (x y : Reg) (s : State) : Host.Outcome State Fault Refusal :=
  .next (s.writeBack x (s.getReg x - (s.getReg y)) 1)

/-- SUB RX, UIMM3 (R195). -/
def execSubS (x : Reg) (y : BitVec 3) (s : State) : Host.Outcome State Fault Refusal :=
  .next (s.writeBack x (s.getReg x - (uimm3 y)) 1)

/-- SUB RX, IMM12 (R196). -/
def execSubL (x : Reg) (i : Word) (s : State) : Host.Outcome State Fault Refusal :=
  .next (s.writeBack x (s.getReg x - i) 2)

/-- RSB RX, RY (R197). -/
def execRsbR (x y : Reg) (s : State) : Host.Outcome State Fault Refusal :=
  .next (s.writeBack x ((s.getReg y) - s.getReg x) 1)

/-- RSB RX, UIMM3 (R198). -/
def execRsbS (x : Reg) (y : BitVec 3) (s : State) : Host.Outcome State Fault Refusal :=
  .next (s.writeBack x ((uimm3 y) - s.getReg x) 1)

/-- RSB RX, IMM12 (R199). -/
def execRsbL (x : Reg) (i : Word) (s : State) : Host.Outcome State Fault Refusal :=
  .next (s.writeBack x (i - s.getReg x) 2)

end Sys2Proof.Machine
end

