-- ==== Sys2Proof/Machine/Comparison.lean ====
section
/-! DEFINITION. Comparison: EQ, LR, GR (spec/45_comparison.md R170 to R179). -/

namespace Sys2Proof.Machine

/-- EQ RX, RY (R171). -/
def execEqR (x y : Reg) (s : State) : Host.Outcome State Fault Refusal :=
  .next (s.writeBack x (truthWord (wordEq (s.getReg x) (s.getReg y))) 1)

/-- EQ RX, SIMM3 (R172). -/
def execEqS (x : Reg) (y : BitVec 3) (s : State) : Host.Outcome State Fault Refusal :=
  .next (s.writeBack x (truthWord (wordEq (s.getReg x) (simm3 y))) 1)

/-- EQ RX, IMM12 (R173). -/
def execEqL (x : Reg) (i : Word) (s : State) : Host.Outcome State Fault Refusal :=
  .next (s.writeBack x (truthWord (wordEq (s.getReg x) i)) 2)

/-- LR RX, RY (R174). -/
def execLrR (x y : Reg) (s : State) : Host.Outcome State Fault Refusal :=
  .next (s.writeBack x (truthWord (wordLess (s.getReg x) (s.getReg y))) 1)

/-- LR RX, SIMM3 (R175). -/
def execLrS (x : Reg) (y : BitVec 3) (s : State) : Host.Outcome State Fault Refusal :=
  .next (s.writeBack x (truthWord (wordLess (s.getReg x) (simm3 y))) 1)

/-- LR RX, IMM12 (R176). -/
def execLrL (x : Reg) (i : Word) (s : State) : Host.Outcome State Fault Refusal :=
  .next (s.writeBack x (truthWord (wordLess (s.getReg x) i)) 2)

/-- GR RX, RY (R177). -/
def execGrR (x y : Reg) (s : State) : Host.Outcome State Fault Refusal :=
  .next (s.writeBack x (truthWord (wordGreater (s.getReg x) (s.getReg y))) 1)

/-- GR RX, SIMM3 (R178). -/
def execGrS (x : Reg) (y : BitVec 3) (s : State) : Host.Outcome State Fault Refusal :=
  .next (s.writeBack x (truthWord (wordGreater (s.getReg x) (simm3 y))) 1)

/-- GR RX, IMM12 (R179). -/
def execGrL (x : Reg) (i : Word) (s : State) : Host.Outcome State Fault Refusal :=
  .next (s.writeBack x (truthWord (wordGreater (s.getReg x) i)) 2)

end Sys2Proof.Machine
end

