-- ==== Sys2Proof/Machine/FlowControl.lean ====
section
/-! DEFINITION. Subroutine and jump-table flow control: JR (spec/42_flow_control.md R140, R141). -/

namespace Sys2Proof.Machine

/-- JR RX, RY (R140). -/
def execJrR (x y : Reg) (s : State) : Host.Outcome State Fault Refusal :=
  .next (s.jumpAndLink x (s.getReg y) 1)

/-- JR RX, RY, IMM12 (R141): the link is the address after the immediate word. -/
def execJrA (x y : Reg) (i : Word) (s : State) : Host.Outcome State Fault Refusal :=
  .next (s.jumpAndLink x (s.address y i) 2)

end Sys2Proof.Machine
end

