-- ==== Sys2Proof/Machine/Logic.lean ====
section
/-! DEFINITION. Bitwise logic: AND, OR, XOR (spec/47_logic.md R210 to R219). -/

namespace Sys2Proof.Machine

/-- AND RX, RY (R211). -/
def execAndR (x y : Reg) (s : State) : Host.Outcome State Fault Refusal :=
  .next (s.writeBack x (s.getReg x &&& (s.getReg y)) 1)

/-- AND RX, SIMM3 (R212). -/
def execAndS (x : Reg) (y : BitVec 3) (s : State) : Host.Outcome State Fault Refusal :=
  .next (s.writeBack x (s.getReg x &&& (simm3 y)) 1)

/-- AND RX, IMM12 (R213). -/
def execAndL (x : Reg) (i : Word) (s : State) : Host.Outcome State Fault Refusal :=
  .next (s.writeBack x (s.getReg x &&& i) 2)

/-- OR RX, RY (R214). -/
def execOrR (x y : Reg) (s : State) : Host.Outcome State Fault Refusal :=
  .next (s.writeBack x (s.getReg x ||| (s.getReg y)) 1)

/-- OR RX, SIMM3 (R215). -/
def execOrS (x : Reg) (y : BitVec 3) (s : State) : Host.Outcome State Fault Refusal :=
  .next (s.writeBack x (s.getReg x ||| (simm3 y)) 1)

/-- OR RX, IMM12 (R216). -/
def execOrL (x : Reg) (i : Word) (s : State) : Host.Outcome State Fault Refusal :=
  .next (s.writeBack x (s.getReg x ||| i) 2)

/-- XOR RX, RY (R217). -/
def execXorR (x y : Reg) (s : State) : Host.Outcome State Fault Refusal :=
  .next (s.writeBack x (s.getReg x ^^^ (s.getReg y)) 1)

/-- XOR RX, SIMM3 (R218). -/
def execXorS (x : Reg) (y : BitVec 3) (s : State) : Host.Outcome State Fault Refusal :=
  .next (s.writeBack x (s.getReg x ^^^ (simm3 y)) 1)

/-- XOR RX, IMM12 (R219). -/
def execXorL (x : Reg) (i : Word) (s : State) : Host.Outcome State Fault Refusal :=
  .next (s.writeBack x (s.getReg x ^^^ i) 2)

end Sys2Proof.Machine
end

