-- ==== Sys2Proof/Machine/MemoryAccess.lean ====
section
/-! DEFINITION. Memory access: LW, SW (spec/41_memory_access.md R130 to R133). -/

namespace Sys2Proof.Machine

/-- LW RX, RY (R130). -/
def execLwR (x y : Reg) (s : State) : Host.Outcome State Fault Refusal :=
  .next (s.load x (s.getReg y) 1)

/-- LW RX, RY, IMM12 (R131). -/
def execLwA (x y : Reg) (i : Word) (s : State) : Host.Outcome State Fault Refusal :=
  .next (s.load x (s.address y i) 2)

/-- SW RX, RY (R132). -/
def execSwR (x y : Reg) (s : State) : Host.Outcome State Fault Refusal :=
  .next (s.store x (s.getReg y) 1)

/-- SW RX, RY, IMM12 (R133). -/
def execSwA (x y : Reg) (i : Word) (s : State) : Host.Outcome State Fault Refusal :=
  .next (s.store x (s.address y i) 2)

end Sys2Proof.Machine
end

