-- ==== Sys2Proof/Machine/ModeControl.lean ====
section
/-! DEFINITION. Machine and user state control: BRK, REU, JRU, JZ (spec/40_mode_control.md R110 to R114). -/

namespace Sys2Proof.Machine

/-- BRK IMM3 (R110): in user mode, trap to vector slot n with UPC at the next instruction. The same word executed in
machine mode is REU or JRU (R111). -/
def execBrk (n : IrqNum) (s : State) : Host.Outcome State Fault Refusal :=
  .next (s.breakWord n)

/-- REU (R112): in machine mode, back to user mode at UPC. The same word executed in user mode is BRK 0
(R111). -/
def execReu (s : State) : Host.Outcome State Fault Refusal :=
  .next (s.breakWord 0)

/-- JRU RX (R113): in machine mode, to user mode at the address in register X. The same word executed in
user mode is BRK X (R111). -/
def execJru (x : Reg) (s : State) : Host.Outcome State Fault Refusal :=
  .next (s.breakWord x.bits)

/-- JZ RX, HIMM8 (R114): jump relative to the next instruction if register X is zero. -/
def execJz (x : Reg) (h : BitVec 8) (s : State) : Host.Outcome State Fault Refusal :=
  .next (if s.getReg x = 0x000 then s.jump (s.next 1 + simm8 h) else s.advance 1)

end Sys2Proof.Machine
end

