-- ==== Sys2Proof/Machine/RegisterTransfer.lean ====
section
/-! DEFINITION. Register transfer: MV (spec/43_register_transfer.md R150 to R152). -/

namespace Sys2Proof.Machine

/-- MV RX, RY (R150). -/
def execMvR (x y : Reg) (s : State) : Host.Outcome State Fault Refusal :=
  .next (s.writeBack x (s.getReg y) 1)

/-- MV RX, SIMM3 (R151). -/
def execMvS (x : Reg) (y : BitVec 3) (s : State) : Host.Outcome State Fault Refusal :=
  .next (s.writeBack x (simm3 y) 1)

/-- MV RX, IMM12 (R152). -/
def execMvL (x : Reg) (i : Word) (s : State) : Host.Outcome State Fault Refusal :=
  .next (s.writeBack x i 2)

end Sys2Proof.Machine
end

