-- ==== Sys2Proof/Machine/Shift.lean ====
section
/-! DEFINITION. Bitwise shift: LSL, LSR, ASR (spec/44_shift.md R160 to R166). -/

namespace Sys2Proof.Machine

/-- LSL RX, RY (R161): the amount is the low four bits of register Y. -/
def execLslR (x y : Reg) (s : State) : Host.Outcome State Fault Refusal :=
  .next (s.writeBack x (shiftLeft (s.getReg x) (shiftAmount (s.getReg y))) 1)

/-- LSL RX, BIMM3 (R162): the field 0 shifts by 8. -/
def execLslS (x : Reg) (y : BitVec 3) (s : State) : Host.Outcome State Fault Refusal :=
  .next (s.writeBack x (shiftLeft (s.getReg x) (bimm3 y)) 1)

/-- LSR RX, RY (R163): the amount is the low four bits of register Y. -/
def execLsrR (x y : Reg) (s : State) : Host.Outcome State Fault Refusal :=
  .next (s.writeBack x (shiftRight (s.getReg x) (shiftAmount (s.getReg y))) 1)

/-- LSR RX, BIMM3 (R164): the field 0 shifts by 8. -/
def execLsrS (x : Reg) (y : BitVec 3) (s : State) : Host.Outcome State Fault Refusal :=
  .next (s.writeBack x (shiftRight (s.getReg x) (bimm3 y)) 1)

/-- ASR RX, RY (R165): the amount is the low four bits of register Y. -/
def execAsrR (x y : Reg) (s : State) : Host.Outcome State Fault Refusal :=
  .next (s.writeBack x (shiftRightArith (s.getReg x) (shiftAmount (s.getReg y))) 1)

/-- ASR RX, BIMM3 (R166): the field 0 shifts by 8. -/
def execAsrS (x : Reg) (y : BitVec 3) (s : State) : Host.Outcome State Fault Refusal :=
  .next (s.writeBack x (shiftRightArith (s.getReg x) (bimm3 y)) 1)

end Sys2Proof.Machine
end

