-- ==== Sys2Proof/Machine/Dispatch.lean ====
section
/-! DEFINITION. The meaning of every instruction: one arm per constructor of `Instr`. -/

namespace Sys2Proof.Machine

def exec (i : Instr) (s : State) : Host.Outcome State Fault Refusal :=
  match i with
  | .reu => Sys2Proof.Machine.execReu s
  | .brk n => Sys2Proof.Machine.execBrk n s
  | .jru x => Sys2Proof.Machine.execJru x s
  | .jz x h => Sys2Proof.Machine.execJz x h s
  | .lwR x y => Sys2Proof.Machine.execLwR x y s
  | .lwA x y imm => Sys2Proof.Machine.execLwA x y imm s
  | .swR x y => Sys2Proof.Machine.execSwR x y s
  | .swA x y imm => Sys2Proof.Machine.execSwA x y imm s
  | .jrR x y => Sys2Proof.Machine.execJrR x y s
  | .jrA x y imm => Sys2Proof.Machine.execJrA x y imm s
  | .mvR x y => Sys2Proof.Machine.execMvR x y s
  | .mvS x y => Sys2Proof.Machine.execMvS x y s
  | .mvL x imm => Sys2Proof.Machine.execMvL x imm s
  | .lslR x y => Sys2Proof.Machine.execLslR x y s
  | .lslS x y => Sys2Proof.Machine.execLslS x y s
  | .lsrR x y => Sys2Proof.Machine.execLsrR x y s
  | .lsrS x y => Sys2Proof.Machine.execLsrS x y s
  | .asrR x y => Sys2Proof.Machine.execAsrR x y s
  | .asrS x y => Sys2Proof.Machine.execAsrS x y s
  | .eqR x y => Sys2Proof.Machine.execEqR x y s
  | .eqS x y => Sys2Proof.Machine.execEqS x y s
  | .eqL x imm => Sys2Proof.Machine.execEqL x imm s
  | .lrR x y => Sys2Proof.Machine.execLrR x y s
  | .lrS x y => Sys2Proof.Machine.execLrS x y s
  | .lrL x imm => Sys2Proof.Machine.execLrL x imm s
  | .grR x y => Sys2Proof.Machine.execGrR x y s
  | .grS x y => Sys2Proof.Machine.execGrS x y s
  | .grL x imm => Sys2Proof.Machine.execGrL x imm s
  | .addR x y => Sys2Proof.Machine.execAddR x y s
  | .addS x y => Sys2Proof.Machine.execAddS x y s
  | .addL x imm => Sys2Proof.Machine.execAddL x imm s
  | .subR x y => Sys2Proof.Machine.execSubR x y s
  | .subS x y => Sys2Proof.Machine.execSubS x y s
  | .subL x imm => Sys2Proof.Machine.execSubL x imm s
  | .rsbR x y => Sys2Proof.Machine.execRsbR x y s
  | .rsbS x y => Sys2Proof.Machine.execRsbS x y s
  | .rsbL x imm => Sys2Proof.Machine.execRsbL x imm s
  | .andR x y => Sys2Proof.Machine.execAndR x y s
  | .andS x y => Sys2Proof.Machine.execAndS x y s
  | .andL x imm => Sys2Proof.Machine.execAndL x imm s
  | .orR x y => Sys2Proof.Machine.execOrR x y s
  | .orS x y => Sys2Proof.Machine.execOrS x y s
  | .orL x imm => Sys2Proof.Machine.execOrL x imm s
  | .xorR x y => Sys2Proof.Machine.execXorR x y s
  | .xorS x y => Sys2Proof.Machine.execXorS x y s
  | .xorL x imm => Sys2Proof.Machine.execXorL x imm s

end Sys2Proof.Machine
end

