-- ==== Sys2Proof/Machine/Fetch.lean ====
section
/-! DEFINITION. Fetching the words of the next instruction (R12, R53, R64, R66, R87, R88), and placing
an instruction where the next fetch finds it (for `State.withFetchWord`). -/

namespace Sys2Proof.Machine

/-- One of the words a fetch may deliver: `pick` is a free choice among them. -/
def pickWord (pick : Nat) (stored : Word) (old : List Word) : Word :=
  (stored :: old).getD (pick % (old.length + 1)) stored

/-- `Fetch(a)` (R12): the word a code read in the current mode delivers. Inside the prefetch window of
R64 it is the stored word or one that a store has replaced, and nothing says which (assumption 6). -/
def State.fetchWord (s : State) (a : Word) : Word :=
  match s.staleWords a with
  | [] => s.busAnswer (s.codeRequest a)
  | old => pickWord (Config.prefetchPick s.draws) (s.busAnswer (s.codeRequest a)) old

/-- The state after `Fetch(a)`. -/
def State.afterFetch (s : State) (a : Word) : State :=
  let t := s.afterRead (s.codeRequest a) (s.fetchWord a)
  match s.staleWords a with
  | [] => t
  | _ => { t with draws := t.draws + 1 }

/-- The state after the fetch of the instruction at PC: its first word and then, for a two-word
instruction only, its immediate word (R66, R88). -/
def State.afterInstrFetch (s : State) : State :=
  let w := s.fetchWord s.pc
  let t := s.afterFetch s.pc
  if instrLen Config.imm12Select w = 1 then t else t.afterFetch (s.pc + 1)

/-- The words of the instruction at PC (R80, R88): the immediate word is at PC + 1, modulo 4096 (R26). -/
def State.fetchedWords (s : State) : List Word :=
  let w := s.fetchWord s.pc
  if instrLen Config.imm12Select w = 1 then [w]
  else [w, (s.afterFetch s.pc).fetchWord (s.pc + 1)]

/-- The instruction the machine reads from a stream of words in the mode `user`. The stream of a fetch
is never too short; `MV ZR, 0` stands where there is none. -/
def instrOf (user : Bool) (ws : List Word) : Instr :=
  match decode Config.imm12Select user ws with
  | .ok (i, _) => i
  | .error _ => .mvS .r0 0

/-- The instruction at PC. -/
def State.fetchedInstr (s : State) : Instr := instrOf s.user s.fetchedWords

/-- A bus map with one more region in front, which sends the code request for `a` to its home cell. -/
def withHomeCode (m : BusMap) (user : Bool) (a : Word) : BusMap :=
  ⟨user, true, a.toNat, 1, .cell (homeCell ⟨user, true, a⟩)⟩ :: m

/-- The two words stored in the home cells of the code addresses PC and PC + 1, which the bus map then
gives to those addresses. -/
def State.placeAtHome (s : State) (w imm : Word) : State :=
  { s with
    bus := withHomeCode (withHomeCode s.bus s.user s.pc) s.user (s.pc + 1)
    mem := (s.mem.write (homeCell (s.codeRequest s.pc)) w).write
      (homeCell (s.codeRequest (s.pc + 1))) imm }

/-- The two words of an instruction stored where the next two fetches of the current mode find them. If
the platform does not give those addresses two different memory cells, it is made to. -/
def State.placeInstr (s : State) (w imm : Word) : State :=
  match busTarget s.bus (s.codeRequest s.pc), busTarget s.bus (s.codeRequest (s.pc + 1)) with
  | .cell m, .cell n =>
    if m = n then s.placeAtHome w imm else { s with mem := (s.mem.write m w).write n imm }
  | _, _ => s.placeAtHome w imm

/-- No request at the boundary the state stands at, the later ones as they are. -/
def State.quietBoundary (s : State) : State :=
  { s with irqInput := match s.irqInput with
      | [] => []
      | _ :: rest => 0 :: rest }

/-- No word in the prefetch window, so that the next fetches deliver what memory holds. -/
def State.emptyWindow (s : State) : State := { s with stale := [] }

end Sys2Proof.Machine
end

