-- ==== Sys2Proof/Machine/Step.lean ====
section
/-! DEFINITION. One step: the instruction boundary's input is consumed, and then either a reset request
or an external interrupt is taken, or the instruction at PC is fetched and executed. -/

namespace Sys2Proof.Machine

/-- One step of the machine (R255 to R262, R87): at the boundary a request may displace the instruction
at PC, which then has no effect and is not fetched; otherwise that instruction is fetched, decoded in the
current mode and executed whole. -/
def step (s : State) : Host.Outcome State Fault Refusal :=
  match s.boundary with
  | .reset => .next s.passBoundary.takeReset
  | .interrupt n => .next (s.passBoundary.takeBreak n s.pc)
  | .execute => exec s.passBoundary.fetchedInstr s.passBoundary.afterInstrFetch

/-- The state with an opcode-table row's bits stored where the next step fetches its instruction: the
first word in bits 11..0, the second in bits 23..12, every bit from `nbits` up 0. No request is left at
this boundary and no older word in the prefetch window, since either would keep the step from running it
(assumption 19). -/
def State.withFetchWord (s : State) (nbits w : Nat) : State :=
  let bits := w % 2 ^ nbits
  ((s.placeInstr (BitVec.ofNat 12 bits) (BitVec.ofNat 12 (bits / 4096))).quietBoundary).emptyWindow

end Sys2Proof.Machine
end

