-- ==== Sys2Proof/Machine/Assembly.lean ====
section
/-! DEFINITION. Assembly text as the source's examples show it (R21, R89, R95, R96): the mnemonic in upper
case, operands separated by a comma and a space, registers by alias, immediates as decimal numbers; and the
spec's conventions for choosing a form (R93, R96; assumption 25). -/

namespace Sys2Proof.Machine

/-- The alias of a register (R21). -/
def regAlias (r : Reg) : String :=
  match r with
  | .r0 => "ZR"
  | .r1 => "AS"
  | .r2 => "AX"
  | .r3 => "BX"
  | .r4 => "CX"
  | .r5 => "DX"
  | .r6 => "BP"
  | .r7 => "SP"

/-- A mnemonic with two operands. -/
def asm2 (name a b : String) : String := name ++ " " ++ a ++ ", " ++ b

/-- A mnemonic with three operands. -/
def asm3 (name a b c : String) : String := asm2 name a b ++ ", " ++ c

/-- RX, RY. -/
def asmRR (name : String) (x y : Reg) : String := asm2 name (regAlias x) (regAlias y)

/-- RX, then an immediate as a decimal number. -/
def asmRI (name : String) (x : Reg) (i : Int) : String := asm2 name (regAlias x) (toString i)

/-- RX, RY, then a 12-bit immediate. -/
def asmRRI (name : String) (x y : Reg) (i : Word) : String :=
  asm3 name (regAlias x) (regAlias y) (toString i.toNat)

/-- The assembly text of an instruction (R95). BRK, JRU and REU are the names R96a gives. -/
def asmText (i : Instr) : String :=
  match i with
  | .reu => "REU"
  | .brk n => "BRK " ++ toString n.toNat
  | .jru x => "JRU " ++ regAlias x
  | .jz x h => asmRI "JZ" x h.toInt
  | .lwR x y => asmRR "LW" x y
  | .lwA x y i => asmRRI "LW" x y i
  | .swR x y => asmRR "SW" x y
  | .swA x y i => asmRRI "SW" x y i
  | .jrR x y => asmRR "JR" x y
  | .jrA x y i => asmRRI "JR" x y i
  | .mvR x y => asmRR "MV" x y
  | .mvS x y => asmRI "MV" x y.toInt
  | .mvL x i => asmRI "MV" x (i.toNat : Int)
  | .lslR x y => asmRR "LSL" x y
  | .lslS x y => asmRI "LSL" x (bimm3 y : Int)
  | .lsrR x y => asmRR "LSR" x y
  | .lsrS x y => asmRI "LSR" x (bimm3 y : Int)
  | .asrR x y => asmRR "ASR" x y
  | .asrS x y => asmRI "ASR" x (bimm3 y : Int)
  | .eqR x y => asmRR "EQ" x y
  | .eqS x y => asmRI "EQ" x y.toInt
  | .eqL x i => asmRI "EQ" x (i.toNat : Int)
  | .lrR x y => asmRR "LR" x y
  | .lrS x y => asmRI "LR" x y.toInt
  | .lrL x i => asmRI "LR" x (i.toNat : Int)
  | .grR x y => asmRR "GR" x y
  | .grS x y => asmRI "GR" x y.toInt
  | .grL x i => asmRI "GR" x (i.toNat : Int)
  | .addR x y => asmRR "ADD" x y
  | .addS x y => asmRI "ADD" x (y.toNat : Int)
  | .addL x i => asmRI "ADD" x (i.toNat : Int)
  | .subR x y => asmRR "SUB" x y
  | .subS x y => asmRI "SUB" x (y.toNat : Int)
  | .subL x i => asmRI "SUB" x (i.toNat : Int)
  | .rsbR x y => asmRR "RSB" x y
  | .rsbS x y => asmRI "RSB" x (y.toNat : Int)
  | .rsbL x i => asmRI "RSB" x (i.toNat : Int)
  | .andR x y => asmRR "AND" x y
  | .andS x y => asmRI "AND" x y.toInt
  | .andL x i => asmRI "AND" x (i.toNat : Int)
  | .orR x y => asmRR "OR" x y
  | .orS x y => asmRI "OR" x y.toInt
  | .orL x i => asmRI "OR" x (i.toNat : Int)
  | .xorR x y => asmRR "XOR" x y
  | .xorS x y => asmRI "XOR" x y.toInt
  | .xorL x i => asmRI "XOR" x (i.toNat : Int)

/-- The value is one of SIMM3, -4 to 3 as a word (R89). -/
def fitsSimm3 (v : Word) : Bool := simm3 (v.setWidth 3) == v

/-- The value is one of UIMM3, 0 to 7 (R89). -/
def fitsUimm3 (v : Word) : Bool := uimm3 (v.setWidth 3) == v

/-- The short form where the value fits it, else the 12-bit form (R96c). -/
def shortOrLong (fits : Word → Bool) (formS : BitVec 3 → Instr) (formL : Word → Instr) (v : Word) : Instr :=
  if fits v then formS (v.setWidth 3) else formL v

/-- A register form of one of the ten opcodes with a 12-bit form; for R0 its short form with the immediate 0,
which gives the same value (R93a). -/
def registerOrZero (formR : Reg → Instr) (formS : BitVec 3 → Instr) (y : Reg) : Instr :=
  if y = .r0 then formS 0 else formR y

/-- JZ at address `here` to a label: H is the distance from the next address, which must not be 0 and must be
in the range of SIMM8 (R96c). -/
def jzTo (x : Reg) (here label : Word) : Option Instr :=
  let d := label - (here + 1)
  if d.setWidth 8 ≠ 0 ∧ simm8 (d.setWidth 8) = d then some (.jz x (d.setWidth 8)) else none

/-- `JR RY` with one operand is JR ZR, RY (R96b). -/
def jrTo (y : Reg) : Instr := .jrR .r0 y

end Sys2Proof.Machine
end

