-- ==== Sys2Proof/Machine/Pseudo.lean ====
section
/-! DEFINITION. The pseudo-instructions of the source's examples (spec/48_pseudo_instructions.md R230 to
R240): macros that expand to instructions. None of them is hardware. -/

namespace Sys2Proof.Machine

/-- A pseudo-instruction (R97). -/
inductive Pseudo where
  /-- PSH RX (R231). -/
  | psh (x : Reg)
  /-- POP RX (R232). -/
  | pop (x : Reg)
  /-- DUP (R233). -/
  | dup
  /-- SWAP (R234). -/
  | swap
  /-- ENTER #Y (R235). -/
  | enter (y : Word)
  /-- EXIT (R236). -/
  | exit
  /-- LV RX, #Y (R237). -/
  | lv (x : Reg) (y : Word)
  /-- SV RX, #Y (R237). -/
  | sv (x : Reg) (y : Word)
  /-- ADD24 AX, BX, CX, DX, the five instructions that give the sum (R240). -/
  | add24
  /-- ADD24 with the optional two instructions that give the carry out (R240). -/
  | add24Carry
  deriving DecidableEq, Repr

/-- PSH RX: `SW RX, SP` and `SUB SP, 1` (R231; the source's labels are exchanged, C9). -/
def pshCode (x : Reg) : List Instr := [.swR x .r7, .subS .r7 1]

/-- POP RX: `ADD SP, 1` and `LW RX, SP` (R232). -/
def popCode (x : Reg) : List Instr := [.addS .r7 1, .lwR x .r7]

/-- `SUB SP, #Y`: the short form when Y fits UIMM3, else the long form (R96c, R235). -/
def makeRoom (y : Word) : Instr := shortOrLong fitsUimm3 (.subS .r7) (.subL .r7) y

/-- The first five instructions of ADD24 (R240). -/
def add24Code : List Instr :=
  [.addR .r3 .r5, .mvR .r1 .r3, .lrR .r1 .r5, .addR .r2 .r1, .addR .r2 .r4]

/-- The expansion of a pseudo-instruction (R231 to R240). -/
def expand (p : Pseudo) : List Instr :=
  match p with
  | .psh x => pshCode x
  | .pop x => popCode x
  | .dup => popCode .r1 ++ pshCode .r1 ++ pshCode .r1
  | .swap => popCode .r2 ++ popCode .r3 ++ pshCode .r2 ++ pshCode .r3
  | .enter y => pshCode .r1 ++ pshCode .r6 ++ [.mvR .r6 .r7, makeRoom y]
  | .exit => [.mvR .r7 .r6] ++ popCode .r6 ++ popCode .r1 ++ [jrTo .r1]
  | .lv x y => [.lwA x .r6 y]
  | .sv x y => [.swA x .r6 y]
  | .add24 => add24Code
  | .add24Carry => add24Code ++ [.mvR .r1 .r2, .lrR .r1 .r4]

/-- The instructions of an expansion, one after the other. -/
def execList (is : List Instr) (s : State) : Host.Outcome State Fault Refusal :=
  match is with
  | [] => .next s
  | i :: rest =>
    match exec i s with
    | .next t => execList rest t
    | .fault r => .fault r
    | .refused r => .refused r

end Sys2Proof.Machine
end

