-- ==== Sys2Proof/Machine/Timing.lean ====
section
/-! DEFINITION. The clocks per instruction that the source gives (R300). Timing information only: time
is no part of the state and no step depends on it (D19, assumption 20). -/

namespace Sys2Proof.Machine

/-- The four rows of the source's table (R300). -/
inductive TimingRow where
  | memoryAccess
  | controlFlow
  | aluImm12
  | aluShort
  deriving DecidableEq, Repr

/-- The figure of each row (R300). -/
def rowClocks (r : TimingRow) : Nat :=
  match r with
  | .memoryAccess => 3
  | .controlFlow => 2
  | .aluImm12 => 2
  | .aluShort => 1

/-- The row of each instruction, by the spec's reading of the table (R300). The table gives one figure a
mnemonic, so the two-word forms of LW, SW and JR, and a JZ that is not taken, have it too (R301). -/
def timingRow (i : Instr) : TimingRow :=
  match i with
  | .reu | .brk _ | .jru _ | .jz _ _ | .jrR _ _ | .jrA _ _ _ => .controlFlow
  | .lwR _ _ | .lwA _ _ _ | .swR _ _ | .swA _ _ _ => .memoryAccess
  | .mvL _ _ | .eqL _ _ | .lrL _ _ | .grL _ _ | .addL _ _ | .subL _ _ | .rsbL _ _ | .andL _ _
  | .orL _ _ | .xorL _ _ => .aluImm12
  | .mvR _ _ | .mvS _ _ | .lslR _ _ | .lslS _ _ | .lsrR _ _ | .lsrS _ _ | .asrR _ _ | .asrS _ _
  | .eqR _ _ | .eqS _ _ | .lrR _ _ | .lrS _ _ | .grR _ _ | .grS _ _ | .addR _ _ | .addS _ _
  | .subR _ _ | .subS _ _ | .rsbR _ _ | .rsbS _ _ | .andR _ _ | .andS _ _ | .orR _ _ | .orS _ _
  | .xorR _ _ | .xorS _ _ => .aluShort

/-- Clocks per instruction (R300). -/
def clocks (i : Instr) : Nat := rowClocks (timingRow i)

end Sys2Proof.Machine
end

