-- ==== Sys2Proof/Safety.lean ====
section
/-! DEFINITION. What a safe run is, and the words the statements are written in: which part of the state an
instruction changes and which part it leaves as it was, said through the reads of the machine (a register,
a memory cell) and not through the operations that the meanings use. -/

namespace Sys2Proof.Machine

/-- The machine goes on: the step answers a next state (spec/93_implementation_defined.md: "the model always
has a next state"). -/
def Completes (s : State) : Prop := ∃ t, step s = .next t

/-- No general register changes. -/
def SameRegs (s t : State) : Prop := ∀ r, t.getReg r = s.getReg r

/-- Only register `x` may change. -/
def SameRegsBut (x : Reg) (s t : State) : Prop := ∀ r, r ≠ x → t.getReg r = s.getReg r

/-- Register `x` holds `v`, unless it is R0, which is always 0x000 (R22). -/
def Holds (t : State) (x : Reg) (v : Word) : Prop := t.getReg x = if x = .r0 then 0x000 else v

/-- No memory cell changes: reading it gives what reading it before gave. -/
def SameCells (s t : State) : Prop := ∀ n, t.cellWord n = s.cellWord n

/-- UPC and the mode are unchanged. -/
def SameMode (s t : State) : Prop := t.upc = s.upc ∧ t.user = s.user

/-- The platform's wiring and the interrupt input are unchanged. -/
def SameInputs (s t : State) : Prop := t.bus = s.bus ∧ t.irqInput = s.irqInput

/-- No bus transfer is made and no free value is drawn. -/
def NoTransfer (s t : State) : Prop := t.busLog = s.busLog ∧ t.draws = s.draws

/-- The whole effect of an instruction of `len` words that writes the word `v` to register `x` and does
nothing else but go on to the next instruction. -/
def RegisterEffect (s t : State) (x : Reg) (v : Word) (len : Nat) : Prop :=
  Holds t x v ∧ SameRegsBut x s t ∧ t.pc.toNat = (s.pc.toNat + len) % 4096 ∧ SameMode s t ∧
    SameCells s t ∧ SameInputs s t ∧ NoTransfer s t

/-- The whole effect of a load of register `x` from the data address `a`: one data read in the current mode,
made whatever `x` is; the word it delivers is the cell's where a memory cell answers, and a draw
otherwise. -/
def LoadEffect (s t : State) (x : Reg) (a : Word) (len : Nat) : Prop :=
  ∃ v, Holds t x v ∧ SameRegsBut x s t ∧ t.pc.toNat = (s.pc.toNat + len) % 4096 ∧ SameMode s t ∧
    SameCells s t ∧ SameInputs s t ∧ t.busLog = ⟨⟨s.user, false, a⟩, false, v⟩ :: s.busLog ∧
    (match busTarget s.bus ⟨s.user, false, a⟩ with
      | .cell n => v = s.cellWord n ∧ t.draws = s.draws
      | .device _ => t.draws = s.draws + 1
      | .nothing => t.draws = s.draws + 1)

/-- The whole effect of a store of the word `v` to the data address `a`: one data write in the current mode.
Where a memory cell answers, that cell takes the word and no other cell changes; otherwise none does. -/
def StoreEffect (s t : State) (a v : Word) (len : Nat) : Prop :=
  SameRegs s t ∧ t.pc.toNat = (s.pc.toNat + len) % 4096 ∧ SameMode s t ∧ SameInputs s t ∧
    t.busLog = ⟨⟨s.user, false, a⟩, true, v⟩ :: s.busLog ∧ t.draws = s.draws ∧
    (match busTarget s.bus ⟨s.user, false, a⟩ with
      | .cell n => t.cellWord n = v ∧ ∀ m, m ≠ n → t.cellWord m = s.cellWord m
      | .device _ => SameCells s t
      | .nothing => SameCells s t)

/-- The whole effect of a jump to `target` that leaves the address after an instruction of `len` words in
register `x`. -/
def LinkEffect (s t : State) (x : Reg) (target : Word) (len : Nat) : Prop :=
  (∃ link : Word, link.toNat = (s.pc.toNat + len) % 4096 ∧ Holds t x link) ∧ SameRegsBut x s t ∧
    t.pc = target ∧ SameMode s t ∧ SameCells s t ∧ SameInputs s t ∧ NoTransfer s t

/-- The whole effect of the trap entry `Break(n, ret)` (R254): UPC, the mode and PC, and nothing else. -/
def TrapEffect (s t : State) (n : IrqNum) (ret : Word) : Prop :=
  t.upc = ret ∧ t.user = false ∧ t.pc.toNat = 8 * n.toNat ∧ SameRegs s t ∧ SameCells s t ∧
    t.bus = s.bus ∧ NoTransfer s t

/-- The whole effect of a return to user mode at `target` (R263). -/
def ReturnEffect (s t : State) (target : Word) : Prop :=
  t.pc = target ∧ t.user = true ∧ t.upc = s.upc ∧ SameRegs s t ∧ SameCells s t ∧ SameInputs s t ∧
    NoTransfer s t

/-- The instruction is encoded as a first word with the value `first` and then the words `rest`, under either
value of IMM12_SELECT (R80, R94). -/
def EncodedAs (i : Instr) (first : Nat) (rest : List Word) : Prop :=
  ∀ sel, ∃ w, encode sel i = w :: rest ∧ w.toNat = first

/-- Nothing changes but PC: registers, UPC, the mode, memory, inputs and the bus are as they were. -/
def OnlyPcChanges (s t : State) : Prop :=
  SameRegs s t ∧ SameMode s t ∧ SameCells s t ∧ SameInputs s t ∧ NoTransfer s t

/-- A request for interrupt `n` is present at the boundary the state stands at, and none with a lower
number: the one that `IrqInput` delivers (R258, R261). -/
def Delivered (s : State) (n : IrqNum) : Prop :=
  (s.irqInput.headD 0).getLsbD n.toNat = true ∧
    ∀ m : IrqNum, m < n → (s.irqInput.headD 0).getLsbD m.toNat = false

/-- A reset request is present at the boundary the state stands at (R258, R262). -/
def resetRequested (s : State) : Bool := (s.irqInput.headD 0).getLsbD 0

/-- The names of the BRK words (R111). -/
def isBreakName (i : Instr) : Bool :=
  match i with
  | .reu => true
  | .brk _ => true
  | .jru _ => true
  | .jz _ _ => false
  | .lwR _ _ => false
  | .lwA _ _ _ => false
  | .swR _ _ => false
  | .swA _ _ _ => false
  | .jrR _ _ => false
  | .jrA _ _ _ => false
  | .mvR _ _ => false
  | .mvS _ _ => false
  | .mvL _ _ => false
  | .lslR _ _ => false
  | .lslS _ _ => false
  | .lsrR _ _ => false
  | .lsrS _ _ => false
  | .asrR _ _ => false
  | .asrS _ _ => false
  | .eqR _ _ => false
  | .eqS _ _ => false
  | .eqL _ _ => false
  | .lrR _ _ => false
  | .lrS _ _ => false
  | .lrL _ _ => false
  | .grR _ _ => false
  | .grS _ _ => false
  | .grL _ _ => false
  | .addR _ _ => false
  | .addS _ _ => false
  | .addL _ _ => false
  | .subR _ _ => false
  | .subS _ _ => false
  | .subL _ _ => false
  | .rsbR _ _ => false
  | .rsbS _ _ => false
  | .rsbL _ _ => false
  | .andR _ _ => false
  | .andS _ _ => false
  | .andL _ _ => false
  | .orR _ _ => false
  | .orS _ _ => false
  | .orL _ _ => false
  | .xorR _ _ => false
  | .xorS _ _ => false
  | .xorL _ _ => false

/-- The instructions that may set PC to something other than the next address (R25). -/
def isTransfer (i : Instr) : Bool :=
  match i with
  | .reu => true
  | .brk _ => true
  | .jru _ => true
  | .jz _ _ => true
  | .lwR _ _ => false
  | .lwA _ _ _ => false
  | .swR _ _ => false
  | .swA _ _ _ => false
  | .jrR _ _ => true
  | .jrA _ _ _ => true
  | .mvR _ _ => false
  | .mvS _ _ => false
  | .mvL _ _ => false
  | .lslR _ _ => false
  | .lslS _ _ => false
  | .lsrR _ _ => false
  | .lsrS _ _ => false
  | .asrR _ _ => false
  | .asrS _ _ => false
  | .eqR _ _ => false
  | .eqS _ _ => false
  | .eqL _ _ => false
  | .lrR _ _ => false
  | .lrS _ _ => false
  | .lrL _ _ => false
  | .grR _ _ => false
  | .grS _ _ => false
  | .grL _ _ => false
  | .addR _ _ => false
  | .addS _ _ => false
  | .addL _ _ => false
  | .subR _ _ => false
  | .subS _ _ => false
  | .subL _ _ => false
  | .rsbR _ _ => false
  | .rsbS _ _ => false
  | .rsbL _ _ => false
  | .andR _ _ => false
  | .andS _ _ => false
  | .andL _ _ => false
  | .orR _ _ => false
  | .orS _ _ => false
  | .orL _ _ => false
  | .xorR _ _ => false
  | .xorS _ _ => false
  | .xorL _ _ => false

/-- The instructions that make a data access (R53). -/
def isDataAccess (i : Instr) : Bool :=
  match i with
  | .reu => false
  | .brk _ => false
  | .jru _ => false
  | .jz _ _ => false
  | .lwR _ _ => true
  | .lwA _ _ _ => true
  | .swR _ _ => true
  | .swA _ _ _ => true
  | .jrR _ _ => false
  | .jrA _ _ _ => false
  | .mvR _ _ => false
  | .mvS _ _ => false
  | .mvL _ _ => false
  | .lslR _ _ => false
  | .lslS _ _ => false
  | .lsrR _ _ => false
  | .lsrS _ _ => false
  | .asrR _ _ => false
  | .asrS _ _ => false
  | .eqR _ _ => false
  | .eqS _ _ => false
  | .eqL _ _ => false
  | .lrR _ _ => false
  | .lrS _ _ => false
  | .lrL _ _ => false
  | .grR _ _ => false
  | .grS _ _ => false
  | .grL _ _ => false
  | .addR _ _ => false
  | .addS _ _ => false
  | .addL _ _ => false
  | .subR _ _ => false
  | .subS _ _ => false
  | .subL _ _ => false
  | .rsbR _ _ => false
  | .rsbS _ _ => false
  | .rsbL _ _ => false
  | .andR _ _ => false
  | .andS _ _ => false
  | .andL _ _ => false
  | .orR _ _ => false
  | .orS _ _ => false
  | .orL _ _ => false
  | .xorR _ _ => false
  | .xorS _ _ => false
  | .xorL _ _ => false

/-- The destination register of MV and of the shift, comparison, arithmetic and logic instructions. -/
def aluDestination (i : Instr) : Option Reg :=
  match i with
  | .reu => none
  | .brk _ => none
  | .jru _ => none
  | .jz _ _ => none
  | .lwR _ _ => none
  | .lwA _ _ _ => none
  | .swR _ _ => none
  | .swA _ _ _ => none
  | .jrR _ _ => none
  | .jrA _ _ _ => none
  | .mvR x _ => some x
  | .mvS x _ => some x
  | .mvL x _ => some x
  | .lslR x _ => some x
  | .lslS x _ => some x
  | .lsrR x _ => some x
  | .lsrS x _ => some x
  | .asrR x _ => some x
  | .asrS x _ => some x
  | .eqR x _ => some x
  | .eqS x _ => some x
  | .eqL x _ => some x
  | .lrR x _ => some x
  | .lrS x _ => some x
  | .lrL x _ => some x
  | .grR x _ => some x
  | .grS x _ => some x
  | .grL x _ => some x
  | .addR x _ => some x
  | .addS x _ => some x
  | .addL x _ => some x
  | .subR x _ => some x
  | .subS x _ => some x
  | .subL x _ => some x
  | .rsbR x _ => some x
  | .rsbS x _ => some x
  | .rsbL x _ => some x
  | .andR x _ => some x
  | .andS x _ => some x
  | .andL x _ => some x
  | .orR x _ => some x
  | .orS x _ => some x
  | .orL x _ => some x
  | .xorR x _ => some x
  | .xorS x _ => some x
  | .xorL x _ => some x

/-- The spec's end of a run (R302): the instruction at PC is `JZ ZR, -1`, which jumps to itself. -/
def atEndOfRun (s : State) : Bool := s.fetchedInstr == .jz .r0 0xFF

/-- The invariant of the machine. The memory is in canonical form; and the prefetch window of R64 holds only
words of the next two code addresses, each of them an address that the current mode fetches from a memory
cell. -/
def Inv (s : State) : Prop :=
  s.mem.wf ∧
    ∀ e ∈ s.stale, (e.1 = s.pc ∨ e.1 = s.pc + 1) ∧
      ∃ n, busTarget s.bus ⟨s.user, true, e.1⟩ = .cell n

/-- No request of the user mode reaches the memory cell `n`. -/
def hiddenFromUser (m : BusMap) (n : Nat) : Prop :=
  ∀ code a, busTarget m ⟨true, code, a⟩ ≠ .cell n

end Sys2Proof.Machine
end

