-- ==== Sys2Proof/Certificates/Slice0/Obligations.lean ====
section
/-! DEFINITION. The statements about the machine, for the provers. Each docstring names the rule of spec/ that
the statement formalises, or the decision of the spec, or the log entry, that it rests on. -/

open Sys2Proof Sys2Proof.Machine

/-! ### Encoding and decoding -/

/-- R80 to R88, R94, with the spec's decision D1: under either value of IMM12_SELECT, the decoder reads a
well-formed instruction back from its encoding, with every operand, whatever words follow. BRK is read under
the name its mode gives it (R111). -/
def Obligations.DecodeInvertsEncode : Prop :=
  ∀ (sel : Imm12Select) (user : Bool) (i : Instr) (rest : List Word),
    i.wellFormed sel = true → i.namedIn user = true →
      decode sel user (encode sel i ++ rest) = .ok (i, rest)

/-- R87, R91, with the spec's decision D1: whatever the decoder reads is a well-formed instruction under the
name of its mode, and its encoding is exactly the words that were read. -/
def Obligations.EncodeInvertsDecode : Prop :=
  ∀ (sel : Imm12Select) (user : Bool) (ws : List Word) (i : Instr) (rest : List Word),
    decode sel user ws = .ok (i, rest) →
      i.wellFormed sel = true ∧ i.namedIn user = true ∧ encode sel i ++ rest = ws

/-- R91, derived by the spec from its formats and its decision D1: there is no illegal word, and no two
instructions share one. Every pair of words begins with the encoding of exactly one well-formed
instruction of each mode. -/
def Obligations.EveryWordBeginsOneInstruction : Prop :=
  ∀ (sel : Imm12Select) (user : Bool) (w imm : Word),
    ∃! i : Instr, i.wellFormed sel = true ∧ i.namedIn user = true ∧
      ∃ rest, encode sel i ++ rest = [w, imm]

/-- R94, a consequence of the spec's decision D1: the two values of IMM12_SELECT give a first word different
meanings exactly when it is one of the ten opcodes with a 12-bit immediate form and its field Y is 0. -/
def Obligations.Imm12SelectMattersOnlyForYZero : Prop :=
  ∀ w : Word,
    (∀ user imm, decodeWords .m1y0 user w imm = decodeWords .m0y0 user w imm) ↔
      ¬ (2048 ≤ w.toNat ∧ w.toNat % 16 ∉ [0, 1, 2, 4, 5, 6] ∧ w.toNat / 16 % 8 = 0)

/-- R87, derived by the spec: the only decoding that depends on the mode is that of BRK, the words with
bit 11 = 0 and H = 0. -/
def Obligations.OnlyBreakWordsDecodeByMode : Prop :=
  ∀ (sel : Imm12Select) (w imm : Word),
    decodeWords sel true w imm = decodeWords sel false w imm ↔
      ¬ (w.toNat < 2048 ∧ w.toNat % 256 = 0)

/-- A few words of the spec's decode vectors (spec/95_test_vectors.md section 4), written out from the
encoding formats. -/
def Obligations.SampleWordsDecode : Prop :=
  decode .m1y0 true [0b001100000000] = .ok (.brk 3, []) ∧
  decode .m1y0 false [0b001100000000] = .ok (.jru .r3, []) ∧
  decode .m1y0 false [0b000000000000] = .ok (.reu, []) ∧
  decode .m1y0 true [0b001101111111] = .ok (.jz .r3 0x7F, []) ∧
  decode .m1y0 true [0b100001110001, 0x040] = .ok (.swA .r0 .r7 0x040, []) ∧
  decode .m1y0 true [0b100010010010] = .ok (.jrR .r0 .r1, []) ∧
  decode .m1y0 true [0b101000000110] = .ok (.asrS .r2 0, []) ∧
  decode .m1y0 true [0b101010000111, 0x5A5] = .ok (.eqL .r2 0x5A5, []) ∧
  decode .m0y0 true [0b101010000111, 0x5A5] = .ok (.eqR .r2 .r0, [0x5A5]) ∧
  decode .m1y0 true [0b101001111011] = .ok (.subS .r2 7, []) ∧
  decode .m1y0 true [0b111111111111] = .ok (.xorR .r7 .r7, [])

/-! ### Reset and the invariant -/

/-- R40, R262, R290: after reset PC is 0x000, the mode is machine mode and R0 reads zero, and the machine's
invariant holds. That PC and the mode are all that reset fixes is the spec's decision D13; the values of the
other registers (assumption 2) are not stated. -/
def Obligations.ResetStateMeetsInvariant : Prop :=
  State.reset.pc = 0x000 ∧ State.reset.user = false ∧ State.reset.getReg .r0 = 0x000 ∧ Inv State.reset

/-- R290: execution starts with the fetch of the word at address 0x000 with the machine-mode and code
qualifiers. What the word is depends on the platform (assumption 4). -/
def Obligations.ResetStartsWithFetchFromZero : Prop :=
  ∃ (t : State) (new : List BusAccess) (w : Word), step State.reset = .next t ∧
    t.busLog = new ++ [⟨⟨false, true, 0x000⟩, false, w⟩]

/-- The model's invariant is kept by every step, from every state: the memory stays in canonical form, and the
prefetch window holds words of the next two code addresses only, each fetched from a memory cell (R64, the
spec's decision D10). -/
def Obligations.InvariantKeptByEveryStep : Prop :=
  ∀ s t : State, Inv s → step s = .next t → Inv t

/-- R262, R40, with the spec's decision D13: a reset request is taken in either mode; PC and the mode are as
after reset, R0 is zero, nothing is fetched, and the request is consumed. The other registers and the
memory are free values (assumption 7), of which nothing is stated. -/
def Obligations.ResetRequestTakenInEitherMode : Prop :=
  ∀ s : State, resetRequested s = true →
    ∃ t, step s = .next t ∧ t.pc = 0x000 ∧ t.user = false ∧ t.getReg .r0 = 0x000 ∧ t.busLog = s.busLog ∧
      t.bus = s.bus ∧ t.irqInput = s.irqInput.tail ∧ t.mem.wf ∧ t.stale = []

/-! ### Machine and user state control -/

/-- R110: BRK IMM3 in user mode. -/
def Obligations.BreakTrapsFromUserMode : Prop :=
  ∀ (n : IrqNum) (s : State), s.user = true →
    (∃ (t : State) (ret : Word), exec (.brk n) s = .next t ∧ ret.toNat = (s.pc.toNat + 1) % 4096 ∧
      TrapEffect s t n ret ∧ t.irqInput = s.irqInput) ∧
    EncodedAs (.brk n) (0x100 * n.toNat) []

/-- R111 to R113: under each of its names the BRK word does what the mode and X select. In user mode it traps
to slot X; in machine mode X = 0 returns to user mode at UPC and X from 1 to 7 enters it at the address in
register X. That UPC is then unchanged is the spec's decision D14. -/
def Obligations.BreakWordMeaningFollowsMode : Prop :=
  ∀ (x : Reg) (i : Instr) (s : State), (i = .brk x.bits ∨ i = .jru x ∨ (i = .reu ∧ x = .r0)) →
    (∃ t, exec i s = .next t ∧
      (s.user = true → ∃ ret : Word, ret.toNat = (s.pc.toNat + 1) % 4096 ∧ TrapEffect s t x.bits ret ∧
        t.irqInput = s.irqInput) ∧
      (s.user = false → x = .r0 → ReturnEffect s t s.upc) ∧
      (s.user = false → x ≠ .r0 → ReturnEffect s t (s.getReg x))) ∧
    EncodedAs i (0x100 * x.bits.toNat) [] ∧ clocks i = 2

/-- R114, with the spec's decisions D2 (two's complement) and D4 (modulo 4096): JZ jumps relative to the next
instruction if register X is zero and falls through otherwise; nothing but PC changes. H = 0x80 is -128
(assumption 18). -/
def Obligations.JumpOnZeroTakenOrNot : Prop :=
  ∀ (x : Reg) (h : BitVec 8) (s : State),
    ∃ t, exec (.jz x h) s = .next t ∧ OnlyPcChanges s t ∧
      (t.pc.toNat : Int) =
        if s.getReg x = 0x000 then ((s.pc.toNat : Int) + 1 + h.toInt) % 4096
        else ((s.pc.toNat : Int) + 1) % 4096

/-! ### Memory access -/

/-- R130: LW RX, RY. -/
def Obligations.LoadRegisterIndirect : Prop :=
  ∀ (x y : Reg) (s : State),
    (∃ t, exec (.lwR x y) s = .next t ∧ LoadEffect s t x (s.getReg y) 1) ∧
    EncodedAs (.lwR x y) (0x880 + 0x100 * x.bits.toNat + 0x010 * y.bits.toNat) [] ∧
    clocks (.lwR x y) = 3

/-- R131, with the spec's decision D4 (the address wraps modulo 4096): LW RX, RY, IMM12. -/
def Obligations.LoadRegisterPlusImmediate : Prop :=
  ∀ (x y : Reg) (i : Word) (s : State),
    (∃ (t : State) (a : Word), exec (.lwA x y i) s = .next t ∧
      a.toNat = ((s.getReg y).toNat + i.toNat) % 4096 ∧ LoadEffect s t x a 2) ∧
    EncodedAs (.lwA x y i) (0x800 + 0x100 * x.bits.toNat + 0x010 * y.bits.toNat) [i]

/-- R132: SW RX, RY. -/
def Obligations.StoreRegisterIndirect : Prop :=
  ∀ (x y : Reg) (s : State),
    (∃ t, exec (.swR x y) s = .next t ∧ StoreEffect s t (s.getReg y) (s.getReg x) 1) ∧
    EncodedAs (.swR x y) (0x881 + 0x100 * x.bits.toNat + 0x010 * y.bits.toNat) [] ∧
    clocks (.swR x y) = 3

/-- R133: SW RX, RY, IMM12. -/
def Obligations.StoreRegisterPlusImmediate : Prop :=
  ∀ (x y : Reg) (i : Word) (s : State),
    (∃ (t : State) (a : Word), exec (.swA x y i) s = .next t ∧
      a.toNat = ((s.getReg y).toNat + i.toNat) % 4096 ∧ StoreEffect s t a (s.getReg x) 2) ∧
    EncodedAs (.swA x y i) (0x801 + 0x100 * x.bits.toNat + 0x010 * y.bits.toNat) [i]

/-- R60 (a), R56, with the spec's decision D9: a load that reaches the memory cell a store has just written
sees the stored word, whether or not the two addresses are the same. -/
def Obligations.LoadSeesPrecedingStore : Prop :=
  ∀ (s : State) (x y z w : Reg) (n : Nat),
    busTarget s.bus ⟨s.user, false, s.getReg y⟩ = .cell n →
    busTarget s.bus ⟨s.user, false, s.getReg w⟩ = .cell n →
      ∃ t u, exec (.swR x y) s = .next t ∧ exec (.lwR z w) t = .next u ∧ Holds u z (s.getReg x)

/-- R63, R64, with the spec's decision D10 (assumption 6): after a store to a cell from which code is fetched,
a fetch of it delivers the stored word or, only for the two code addresses that follow the store, possibly
the old one; after a taken jump it delivers the stored word. -/
def Obligations.FetchAfterStoreIntoCode : Prop :=
  ∀ (s t : State) (x y : Reg) (i a : Word) (n : Nat),
    s.stale = [] → exec (.swA x y i) s = .next t →
    busTarget s.bus ⟨s.user, false, s.getReg y + i⟩ = .cell n →
    busTarget s.bus ⟨s.user, true, a⟩ = .cell n →
      (t.fetchWord a = s.getReg x ∨ t.fetchWord a = s.cellWord n) ∧
      (a ≠ t.pc → a ≠ t.pc + 1 → t.fetchWord a = s.getReg x) ∧
      (∀ z w u, exec (.jrR z w) t = .next u → u.fetchWord a = s.getReg x)

/-! ### Flow control and register transfer -/

/-- R140: JR RX, RY. -/
def Obligations.JumpAndLinkRegister : Prop :=
  ∀ (x y : Reg) (s : State),
    (∃ t, exec (.jrR x y) s = .next t ∧ LinkEffect s t x (s.getReg y) 1) ∧
    EncodedAs (.jrR x y) (0x882 + 0x100 * x.bits.toNat + 0x010 * y.bits.toNat) [] ∧
    clocks (.jrR x y) = 2

/-- R141: JR RX, RY, IMM12. -/
def Obligations.JumpAndLinkRegisterPlusImmediate : Prop :=
  ∀ (x y : Reg) (i : Word) (s : State),
    (∃ (t : State) (a : Word), exec (.jrA x y i) s = .next t ∧
      a.toNat = ((s.getReg y).toNat + i.toNat) % 4096 ∧ LinkEffect s t x a 2) ∧
    EncodedAs (.jrA x y i) (0x802 + 0x100 * x.bits.toNat + 0x010 * y.bits.toNat) [i]

/-- R150 to R152, with the spec's decisions D1 (which form a word is) and D2 (two's complement): the three forms
of MV. -/
def Obligations.MoveForms : Prop :=
  (∀ (x y : Reg) (s : State), ∃ t, exec (.mvR x y) s = .next t ∧ RegisterEffect s t x (s.getReg y) 1) ∧
  (∀ (x : Reg) (y : BitVec 3) (s : State), ∃ (t : State) (v : Word), exec (.mvS x y) s = .next t ∧
    v.toInt = y.toInt ∧ RegisterEffect s t x v 1) ∧
  (∀ (x : Reg) (i : Word) (s : State), ∃ t, exec (.mvL x i) s = .next t ∧ RegisterEffect s t x i 2)

/-! ### Shifts -/

/-- R161, R162: LSL, by the low four bits of register Y or by the field, where 0 means 8. -/
def Obligations.LogicalShiftLeft : Prop :=
  (∀ (x y : Reg) (s : State),
    (∃ (t : State) (v : Word), exec (.lslR x y) s = .next t ∧
      v.toNat = (s.getReg x).toNat * 2 ^ ((s.getReg y).toNat % 16) % 4096 ∧ RegisterEffect s t x v 1) ∧
    EncodedAs (.lslR x y) (0x884 + 0x100 * x.bits.toNat + 0x010 * y.bits.toNat) [] ∧
    clocks (.lslR x y) = 1) ∧
  (∀ (x : Reg) (y : BitVec 3) (s : State),
    (∃ (t : State) (v : Word), exec (.lslS x y) s = .next t ∧
      v.toNat = (s.getReg x).toNat * 2 ^ (if y = 0 then 8 else y.toNat) % 4096 ∧
      RegisterEffect s t x v 1) ∧
    EncodedAs (.lslS x y) (0x804 + 0x100 * x.bits.toNat + 0x010 * y.toNat) [] ∧
    clocks (.lslS x y) = 1)

/-- R163, R164: LSR, by the low four bits of register Y or by the field, where 0 means 8. -/
def Obligations.LogicalShiftRight : Prop :=
  (∀ (x y : Reg) (s : State),
    (∃ (t : State) (v : Word), exec (.lsrR x y) s = .next t ∧
      v.toNat = (s.getReg x).toNat / 2 ^ ((s.getReg y).toNat % 16) ∧ RegisterEffect s t x v 1) ∧
    EncodedAs (.lsrR x y) (0x885 + 0x100 * x.bits.toNat + 0x010 * y.bits.toNat) [] ∧
    clocks (.lsrR x y) = 1) ∧
  (∀ (x : Reg) (y : BitVec 3) (s : State),
    (∃ (t : State) (v : Word), exec (.lsrS x y) s = .next t ∧
      v.toNat = (s.getReg x).toNat / 2 ^ (if y = 0 then 8 else y.toNat) ∧ RegisterEffect s t x v 1) ∧
    EncodedAs (.lsrS x y) (0x805 + 0x100 * x.bits.toNat + 0x010 * y.toNat) [] ∧
    clocks (.lsrS x y) = 1)

/-- R165, R166, R160, with the spec's decision D2 (bit 11 is the sign): ASR is the floor of the signed quotient. -/
def Obligations.ArithmeticShiftRight : Prop :=
  (∀ (x y : Reg) (s : State), ∃ (t : State) (v : Word), exec (.asrR x y) s = .next t ∧
    v.toInt = (s.getReg x).toInt / 2 ^ ((s.getReg y).toNat % 16) ∧ RegisterEffect s t x v 1) ∧
  (∀ (x : Reg) (y : BitVec 3) (s : State), ∃ (t : State) (v : Word), exec (.asrS x y) s = .next t ∧
    v.toInt = (s.getReg x).toInt / 2 ^ (if y = 0 then 8 else y.toNat) ∧ RegisterEffect s t x v 1)

/-! ### Comparisons -/

/-- R171 to R173, with the spec's decisions D1 and D2: the three forms of EQ. -/
def Obligations.EqualForms : Prop :=
  (∀ (x y : Reg) (s : State), ∃ t, exec (.eqR x y) s = .next t ∧
    RegisterEffect s t x (if s.getReg x = s.getReg y then 0x001 else 0x000) 1) ∧
  (∀ (x : Reg) (y : BitVec 3) (s : State), ∃ t, exec (.eqS x y) s = .next t ∧
    RegisterEffect s t x (if (s.getReg x).toInt = y.toInt then 0x001 else 0x000) 1) ∧
  (∀ (x : Reg) (i : Word) (s : State), ∃ t, exec (.eqL x i) s = .next t ∧
    RegisterEffect s t x (if s.getReg x = i then 0x001 else 0x000) 2)

/-- R174 to R176, with the spec's decisions D1, D2 and D3 (LR compares as unsigned, R170): the three forms
of LR. The short immediate is sign-extended first and then read as an unsigned word. -/
def Obligations.LessForms : Prop :=
  (∀ (x y : Reg) (s : State), ∃ t, exec (.lrR x y) s = .next t ∧
    RegisterEffect s t x (if (s.getReg x).toNat < (s.getReg y).toNat then 0x001 else 0x000) 1) ∧
  (∀ (x : Reg) (y : BitVec 3) (s : State), ∃ t, exec (.lrS x y) s = .next t ∧
    RegisterEffect s t x
      (if ((s.getReg x).toNat : Int) < y.toInt % 4096 then 0x001 else 0x000) 1) ∧
  (∀ (x : Reg) (i : Word) (s : State), ∃ t, exec (.lrL x i) s = .next t ∧
    RegisterEffect s t x (if (s.getReg x).toNat < i.toNat then 0x001 else 0x000) 2)

/-- R177 to R179, with the spec's decisions D1, D2 and D3 (GR compares as unsigned, R170): the three forms
of GR. -/
def Obligations.GreaterForms : Prop :=
  (∀ (x y : Reg) (s : State), ∃ t, exec (.grR x y) s = .next t ∧
    RegisterEffect s t x (if (s.getReg y).toNat < (s.getReg x).toNat then 0x001 else 0x000) 1) ∧
  (∀ (x : Reg) (y : BitVec 3) (s : State), ∃ t, exec (.grS x y) s = .next t ∧
    RegisterEffect s t x
      (if y.toInt % 4096 < ((s.getReg x).toNat : Int) then 0x001 else 0x000) 1) ∧
  (∀ (x : Reg) (i : Word) (s : State), ∃ t, exec (.grL x i) s = .next t ∧
    RegisterEffect s t x (if i.toNat < (s.getReg x).toNat then 0x001 else 0x000) 2)

/-! ### Arithmetic -/

/-- R191 to R193, R190, with the spec's decisions D1 and D4 (modulo 4096): the three forms of ADD. -/
def Obligations.AddForms : Prop :=
  (∀ (x y : Reg) (s : State), ∃ (t : State) (v : Word), exec (.addR x y) s = .next t ∧
    v.toNat = ((s.getReg x).toNat + (s.getReg y).toNat) % 4096 ∧ RegisterEffect s t x v 1) ∧
  (∀ (x : Reg) (y : BitVec 3) (s : State), ∃ (t : State) (v : Word), exec (.addS x y) s = .next t ∧
    v.toNat = ((s.getReg x).toNat + y.toNat) % 4096 ∧ RegisterEffect s t x v 1) ∧
  (∀ (x : Reg) (i : Word) (s : State), ∃ (t : State) (v : Word), exec (.addL x i) s = .next t ∧
    v.toNat = ((s.getReg x).toNat + i.toNat) % 4096 ∧ RegisterEffect s t x v 2)

/-- R194 to R196, R190, with the spec's decisions D1 and D4 (modulo 4096): the three forms of SUB. -/
def Obligations.SubtractForms : Prop :=
  (∀ (x y : Reg) (s : State), ∃ (t : State) (v : Word), exec (.subR x y) s = .next t ∧
    (v.toNat : Int) = ((s.getReg x).toNat - (s.getReg y).toNat : Int) % 4096 ∧
    RegisterEffect s t x v 1) ∧
  (∀ (x : Reg) (y : BitVec 3) (s : State), ∃ (t : State) (v : Word), exec (.subS x y) s = .next t ∧
    (v.toNat : Int) = ((s.getReg x).toNat - y.toNat : Int) % 4096 ∧ RegisterEffect s t x v 1) ∧
  (∀ (x : Reg) (i : Word) (s : State), ∃ (t : State) (v : Word), exec (.subL x i) s = .next t ∧
    (v.toNat : Int) = ((s.getReg x).toNat - i.toNat : Int) % 4096 ∧ RegisterEffect s t x v 2)

/-- R197 to R199, R190, with the spec's decisions D1 and D4 (modulo 4096): the three forms of RSB. -/
def Obligations.ReverseSubtractForms : Prop :=
  (∀ (x y : Reg) (s : State), ∃ (t : State) (v : Word), exec (.rsbR x y) s = .next t ∧
    (v.toNat : Int) = ((s.getReg y).toNat - (s.getReg x).toNat : Int) % 4096 ∧
    RegisterEffect s t x v 1) ∧
  (∀ (x : Reg) (y : BitVec 3) (s : State), ∃ (t : State) (v : Word), exec (.rsbS x y) s = .next t ∧
    (v.toNat : Int) = (y.toNat - (s.getReg x).toNat : Int) % 4096 ∧ RegisterEffect s t x v 1) ∧
  (∀ (x : Reg) (i : Word) (s : State), ∃ (t : State) (v : Word), exec (.rsbL x i) s = .next t ∧
    (v.toNat : Int) = (i.toNat - (s.getReg x).toNat : Int) % 4096 ∧ RegisterEffect s t x v 2)

/-! ### Logic -/

/-- R211 to R213, R210, with the spec's decisions D1 and D2: the three forms of AND, bit by bit. Bits 2 to 11 of
the short immediate are its sign bit. -/
def Obligations.AndForms : Prop :=
  (∀ (x y : Reg) (s : State), ∃ (t : State) (v : Word), exec (.andR x y) s = .next t ∧
    (∀ k, k < 12 → v.getLsbD k = ((s.getReg x).getLsbD k && (s.getReg y).getLsbD k)) ∧
    RegisterEffect s t x v 1) ∧
  (∀ (x : Reg) (y : BitVec 3) (s : State), ∃ (t : State) (v : Word), exec (.andS x y) s = .next t ∧
    (∀ k, k < 12 → v.getLsbD k = ((s.getReg x).getLsbD k && y.getLsbD (min k 2))) ∧
    RegisterEffect s t x v 1) ∧
  (∀ (x : Reg) (i : Word) (s : State), ∃ (t : State) (v : Word), exec (.andL x i) s = .next t ∧
    (∀ k, k < 12 → v.getLsbD k = ((s.getReg x).getLsbD k && i.getLsbD k)) ∧ RegisterEffect s t x v 2)

/-- R214 to R216, R210, with the spec's decisions D1 and D2: the three forms of OR, bit by bit. -/
def Obligations.OrForms : Prop :=
  (∀ (x y : Reg) (s : State), ∃ (t : State) (v : Word), exec (.orR x y) s = .next t ∧
    (∀ k, k < 12 → v.getLsbD k = ((s.getReg x).getLsbD k || (s.getReg y).getLsbD k)) ∧
    RegisterEffect s t x v 1) ∧
  (∀ (x : Reg) (y : BitVec 3) (s : State), ∃ (t : State) (v : Word), exec (.orS x y) s = .next t ∧
    (∀ k, k < 12 → v.getLsbD k = ((s.getReg x).getLsbD k || y.getLsbD (min k 2))) ∧
    RegisterEffect s t x v 1) ∧
  (∀ (x : Reg) (i : Word) (s : State), ∃ (t : State) (v : Word), exec (.orL x i) s = .next t ∧
    (∀ k, k < 12 → v.getLsbD k = ((s.getReg x).getLsbD k || i.getLsbD k)) ∧ RegisterEffect s t x v 2)

/-- R217 to R219, R210, with the spec's decisions D1 and D2: the three forms of XOR, bit by bit. -/
def Obligations.XorForms : Prop :=
  (∀ (x y : Reg) (s : State), ∃ (t : State) (v : Word), exec (.xorR x y) s = .next t ∧
    (∀ k, k < 12 → v.getLsbD k = ((s.getReg x).getLsbD k != (s.getReg y).getLsbD k)) ∧
    RegisterEffect s t x v 1) ∧
  (∀ (x : Reg) (y : BitVec 3) (s : State), ∃ (t : State) (v : Word), exec (.xorS x y) s = .next t ∧
    (∀ k, k < 12 → v.getLsbD k = ((s.getReg x).getLsbD k != y.getLsbD (min k 2))) ∧
    RegisterEffect s t x v 1) ∧
  (∀ (x : Reg) (i : Word) (s : State), ∃ (t : State) (v : Word), exec (.xorL x i) s = .next t ∧
    (∀ k, k < 12 → v.getLsbD k = ((s.getReg x).getLsbD k != i.getLsbD k)) ∧ RegisterEffect s t x v 2)

/-! ### The step -/

/-- R87, R66, R53: a step runs the decoded instruction. When nothing displaces the instruction at PC and the
words the fetch delivers are the encoding of `i`, the step is `exec i`, after the boundary's input has been
consumed and the fetches have been made. Where the words stand in memory cells and the prefetch window is
empty, the fetches change nothing but the record of the bus: the first word at PC, then the immediate word
at PC + 1, both code reads in the current mode. -/
def Obligations.StepRunsDecodedInstruction : Prop :=
  ∀ (i : Instr) (s : State), i.wellFormed Config.imm12Select = true → i.namedIn s.user = true →
    resetRequested s = false → (s.user = true → s.irqInput.headD 0 = 0) →
    (s.passBoundary.fetchedWords = encode Config.imm12Select i →
      step s = exec i s.passBoundary.afterInstrFetch) ∧
    (s.stale = [] →
      (∀ k w, (encode Config.imm12Select i)[k]? = some w →
        ∃ n, busTarget s.bus ⟨s.user, true, s.pc + BitVec.ofNat 12 k⟩ = .cell n ∧ s.cellWord n = w) →
      step s = exec i
        { s with
          irqInput := s.irqInput.tail
          busLog := ((encode Config.imm12Select i).zipIdx.map fun e =>
            ⟨⟨s.user, true, s.pc + BitVec.ofNat 12 e.2⟩, false, e.1⟩).reverse ++ s.busLog })

/-- spec/93_implementation_defined.md: "the model always has a next state". Every step of every state, and every
instruction in every state, answers a next state: no fault, no refusal. -/
def Obligations.EveryStepAnswersNextState : Prop :=
  (∀ s : State, Completes s) ∧ ∀ (i : Instr) (s : State), ∃ t, exec i s = .next t

/-- R25, with the spec's decision D4: an instruction that is no control transfer ends with PC after all its
words, modulo 4096. -/
def Obligations.SequentialInstructionsAdvancePc : Prop :=
  ∀ (sel : Imm12Select) (i : Instr) (s t : State), isTransfer i = false → exec i s = .next t →
    t.pc.toNat = (s.pc.toNat + (encode sel i).length) % 4096

/-- R253: the instructions that are no BRK word and make no data access behave identically in both modes (those
that make one differ in the qualifier of the request). -/
def Obligations.ModeDoesNotChangeOtherInstructions : Prop :=
  ∀ (i : Instr) (s t : State), isBreakName i = false → isDataAccess i = false → exec i s = .next t →
    exec i { s with user := !s.user } = .next { t with user := !t.user }

/-! ### Interrupts and the mode -/

/-- R256: external interrupt entry. In user mode a delivered request for interrupt n, 1 to 7, displaces the
instruction at PC, which has no effect; nothing is fetched; UPC is its address. An REU executed in machine
mode with that UPC returns to it. -/
def Obligations.ExternalInterruptEntry : Prop :=
  ∀ (s : State) (n : IrqNum), s.user = true → n ≠ 0 → Delivered s n →
    (∃ t, step s = .next t ∧ TrapEffect s t n s.pc ∧ t.irqInput = s.irqInput.tail) ∧
    ∀ h : State, h.user = false → h.upc = s.pc → ∃ u, exec .reu h = .next u ∧ ReturnEffect h u s.pc

/-- R259: in machine mode no external interrupt is taken, whatever is requested: the step is the one it would be
with no request but reset, and UPC is not written. -/
def Obligations.MachineModeMasksInterrupts : Prop :=
  ∀ (s t : State) (l : BitVec 8) (rest : List (BitVec 8)), s.user = false → s.irqInput = l :: rest →
    step { s with irqInput := (l &&& 1) :: rest } = step s ∧
      (l.getLsbD 0 = false → step s = .next t → t.upc = s.upc)

/-- R260, derived by the spec from R256 and R257: a request delivered at the boundary after REU or JRU is taken
before any user instruction executes, with UPC at the address that was returned to. -/
def Obligations.RequestTakenRightAfterReturn : Prop :=
  ∀ (s : State) (i : Instr) (x : Reg) (l k : BitVec 8) (rest : List (BitVec 8)) (n : IrqNum) (target : Word),
    s.user = false → s.irqInput = l :: k :: rest → l.getLsbD 0 = false →
    s.passBoundary.fetchedInstr = i →
    ((i = .reu ∧ target = s.upc) ∨ (i = .jru x ∧ x ≠ .r0 ∧ target = s.getReg x)) →
    n ≠ 0 → k.getLsbD n.toNat = true → (∀ m : IrqNum, m < n → k.getLsbD m.toNat = false) →
      ∃ t u, step s = .next t ∧ t.user = true ∧ t.pc = target ∧ step t = .next u ∧
        TrapEffect t u n target ∧ SameRegs s u ∧ SameCells s u ∧ u.irqInput = rest

/-- R28, with the spec's decision D14: UPC is written only on the way from user mode to machine mode. No step
within machine mode changes it, so traps do not nest (R264); a reset request makes it a free value
(assumption 7). -/
def Obligations.UpcWrittenOnlyOnEntryFromUserMode : Prop :=
  ∀ s t : State, step s = .next t → t.upc ≠ s.upc →
    resetRequested s = true ∨ (s.user = true ∧ t.user = false)

/-- R30: the mode changes only by a BRK word, an external interrupt or a reset request; into user mode only by
a BRK word, executed in machine mode. -/
def Obligations.ModeChangedOnlyByBreakInterruptReset : Prop :=
  ∀ s t : State, step s = .next t → t.user ≠ s.user →
    (s.user = true → resetRequested s = true ∨ (∃ n, n ≠ 0 ∧ Delivered s n) ∨
      isBreakName s.passBoundary.fetchedInstr = true) ∧
    (s.user = false → isBreakName s.passBoundary.fetchedInstr = true ∧ resetRequested s = false)

/-! ### The bus -/

/-- R53, R66, R36, with the spec's decision D11: the bus transfers of one step are, in order, at most two code
reads, of the word at PC and of the word after it, and then at most one data access; all of them carry the
mode, and only data requests write. -/
def Obligations.StepTransfersInOrder : Prop :=
  ∀ s t : State, step s = .next t →
    ∃ data code, t.busLog = data ++ code ++ s.busLog ∧
      data.length ≤ 1 ∧ (∀ e ∈ data, e.request.user = s.user ∧ e.request.code = false) ∧
      (∀ e ∈ code, e.request.user = s.user ∧ e.request.code = true ∧ e.write = false) ∧
      (code.map fun e => e.request.addr) ∈ [[], [s.pc], [s.pc + 1, s.pc]]

/-- R58, R36, derived by the spec from the qualifiers: user mode cannot change a memory cell that none of its
data requests reaches. -/
def Obligations.UserModeWritesOnlyItsDataCells : Prop :=
  ∀ (s t : State) (n : Nat), s.user = true → resetRequested s = false →
    (∀ a, busTarget s.bus ⟨true, false, a⟩ ≠ .cell n) → step s = .next t → t.cellWord n = s.cellWord n

/-- R58, R36, derived by the spec from the qualifiers: user mode cannot learn what the memory cells hold that
none of its requests reaches. Two states that differ in such cells only take steps to two states that
differ in such cells only. -/
def Obligations.UserModeCannotLearnHiddenCells : Prop :=
  ∀ (s t : State) (m : Memory), s.user = true → resetRequested s = false →
    (∀ n, ¬ hiddenFromUser s.bus n → ({ s with mem := m } : State).cellWord n = s.cellWord n) →
    step s = .next t →
      ∃ m', step { s with mem := m } = .next { t with mem := m' } ∧
        ∀ n, ¬ hiddenFromUser s.bus n → ({ t with mem := m' } : State).cellWord n = t.cellWord n

/-! ### The pseudo-instructions -/

/-- R231: PSH RX stores register X at SP and then lowers SP by one, modulo 4096 (the spec's decision D4), where
a memory cell answers at SP. -/
def Obligations.PushStoresThenLowersSp : Prop :=
  ∀ (x : Reg) (s : State) (n : Nat), busTarget s.bus ⟨s.user, false, s.getReg .r7⟩ = .cell n →
    ∃ t, execList (expand (.psh x)) s = .next t ∧ t.cellWord n = s.getReg x ∧
      (∀ m, m ≠ n → t.cellWord m = s.cellWord m) ∧
      ((t.getReg .r7).toNat : Int) = ((s.getReg .r7).toNat - 1 : Int) % 4096 ∧ SameRegsBut .r7 s t ∧
      SameMode s t ∧ t.pc.toNat = (s.pc.toNat + 2) % 4096

/-- R232: POP RX raises SP by one, modulo 4096 (the spec's decision D4), and loads register X from there, where
a memory cell answers; POP SP leaves the loaded word in SP. -/
def Obligations.PopRaisesSpThenLoads : Prop :=
  ∀ (x : Reg) (s : State) (n : Nat) (sp : Word), sp.toNat = ((s.getReg .r7).toNat + 1) % 4096 →
    busTarget s.bus ⟨s.user, false, sp⟩ = .cell n →
    ∃ t, execList (expand (.pop x)) s = .next t ∧ Holds t x (s.cellWord n) ∧
      (x ≠ .r7 → t.getReg .r7 = sp) ∧ (∀ r, r ≠ x → r ≠ .r7 → t.getReg r = s.getReg r) ∧
      SameCells s t ∧ SameMode s t ∧ t.pc.toNat = (s.pc.toNat + 2) % 4096

/-- R240, with the spec's decisions D3 and D4: the first five instructions of ADD24 leave in AX:BX the sum of
AX:BX and CX:DX modulo 2^24, and in AS the carry of the lower words; no other register and no memory cell
changes. -/
def Obligations.Add24ComputesSum : Prop :=
  ∀ s : State, ∃ t, execList (expand .add24) s = .next t ∧
    (t.getReg .r2).toNat * 4096 + (t.getReg .r3).toNat =
      ((s.getReg .r2).toNat * 4096 + (s.getReg .r3).toNat +
        ((s.getReg .r4).toNat * 4096 + (s.getReg .r5).toNat)) % 16777216 ∧
    (t.getReg .r1).toNat = ((s.getReg .r3).toNat + (s.getReg .r5).toNat) / 4096 ∧
    (∀ r, r ≠ .r1 → r ≠ .r2 → r ≠ .r3 → t.getReg r = s.getReg r) ∧ SameCells s t ∧ SameMode s t ∧
    t.pc.toNat = (s.pc.toNat + 5) % 4096

/-- R233: DUP pushes a second copy of the top word, which it also leaves in AS, where memory cells answer at
SP + 1 and SP (modulo 4096, the spec's decision D4). -/
def Obligations.DuplicateTopOfStack : Prop :=
  ∀ (s : State) (m n : Nat),
    busTarget s.bus ⟨s.user, false, s.getReg .r7 + 1⟩ = .cell m →
    busTarget s.bus ⟨s.user, false, s.getReg .r7⟩ = .cell n →
    ∃ t, execList (expand .dup) s = .next t ∧ t.cellWord m = s.cellWord m ∧ t.cellWord n = s.cellWord m ∧
      (∀ k, k ≠ m → k ≠ n → t.cellWord k = s.cellWord k) ∧ t.getReg .r1 = s.cellWord m ∧
      t.getReg .r7 + 1 = s.getReg .r7 ∧ (∀ r, r ≠ .r1 → r ≠ .r7 → t.getReg r = s.getReg r) ∧ SameMode s t ∧
      t.pc.toNat = (s.pc.toNat + 6) % 4096

/-- R234: SWAP exchanges the two top words, which it also leaves in AX and BX, where two memory cells answer at
SP + 1 and SP + 2 (modulo 4096, the spec's decision D4). -/
def Obligations.SwapTopOfStack : Prop :=
  ∀ (s : State) (m n : Nat), m ≠ n →
    busTarget s.bus ⟨s.user, false, s.getReg .r7 + 1⟩ = .cell m →
    busTarget s.bus ⟨s.user, false, s.getReg .r7 + 2⟩ = .cell n →
    ∃ t, execList (expand .swap) s = .next t ∧ t.cellWord m = s.cellWord n ∧ t.cellWord n = s.cellWord m ∧
      (∀ k, k ≠ m → k ≠ n → t.cellWord k = s.cellWord k) ∧ t.getReg .r2 = s.cellWord m ∧
      t.getReg .r3 = s.cellWord n ∧ (∀ r, r ≠ .r2 → r ≠ .r3 → t.getReg r = s.getReg r) ∧ SameMode s t ∧
      t.pc.toNat = (s.pc.toNat + 8) % 4096

/-- R235, R236, with the spec's decisions D4 and D17: a function's prologue and epilogue. ENTER #Y saves AS and BP
at SP and SP - 1, points BP below them and makes room for Y words. Whatever the body does after it, if it leaves
BP, the two saved words, the mode and the bus map as they are, EXIT restores SP, BP and AS and jumps to the
address in AS. -/
def Obligations.EnterExitRestoresFrame : Prop :=
  ∀ (s : State) (y : Word) (m n : Nat), m ≠ n →
    busTarget s.bus ⟨s.user, false, s.getReg .r7⟩ = .cell m →
    busTarget s.bus ⟨s.user, false, s.getReg .r7 - 1⟩ = .cell n →
    ∃ t, execList (expand (.enter y)) s = .next t ∧
      t.cellWord m = s.getReg .r1 ∧ t.cellWord n = s.getReg .r6 ∧
      (∀ k, k ≠ m → k ≠ n → t.cellWord k = s.cellWord k) ∧
      t.getReg .r6 + 2 = s.getReg .r7 ∧ t.getReg .r7 + 2 + y = s.getReg .r7 ∧
      (∀ r, r ≠ .r6 → r ≠ .r7 → t.getReg r = s.getReg r) ∧ SameMode s t ∧
      t.pc.toNat = (s.pc.toNat + if y.toNat < 8 then 6 else 7) % 4096 ∧
      ∀ b : State, b.getReg .r6 = t.getReg .r6 → b.user = s.user → b.bus = s.bus →
        b.cellWord m = t.cellWord m → b.cellWord n = t.cellWord n →
        ∃ u, execList (expand .exit) b = .next u ∧ u.getReg .r7 = s.getReg .r7 ∧
          u.getReg .r6 = s.getReg .r6 ∧ u.getReg .r1 = s.getReg .r1 ∧ u.pc = s.getReg .r1 ∧
          (∀ r, r ≠ .r1 → r ≠ .r6 → r ≠ .r7 → u.getReg r = b.getReg r) ∧ SameCells b u ∧ SameMode b u

/-- R92, derived by the spec: the ways to do nothing. MV and every shift, comparison, arithmetic or logic
instruction with X = 0 changes nothing but PC (writes to R0 are dropped, the spec's decision D5), and neither do
ADD RX, 0; SUB RX, 0; OR RX, 0; MV RX, RX; and a JZ whose register is not zero. -/
def Obligations.NoOperationForms : Prop :=
  ∀ (i : Instr) (x : Reg) (h : BitVec 8) (s : State),
    (aluDestination i = some .r0 ∨ i ∈ [.addS x 0, .subS x 0, .orS x 0, .mvR x x] ∨
      (i = .jz x h ∧ s.getReg x ≠ 0x000)) →
    ∃ t, exec i s = .next t ∧ OnlyPcChanges s t ∧
      ∀ sel, t.pc.toNat = (s.pc.toNat + (encode sel i).length) % 4096

/-- R97, R302, derived by the spec, with its decisions D2 and D4: `JZ ZR, H` always jumps, and with H = -1 to
itself; `XOR RX, -1` complements; `RSB RX, 0` negates; `JR AS, ZR, addr` calls, and `JR ZR, AS` returns to the
address after the call while AS is as the call left it. -/
def Obligations.IdiomsDoWhatTheirNamesSay : Prop :=
  (∀ (h : BitVec 8) (s : State), ∃ t, exec (.jz .r0 h) s = .next t ∧ OnlyPcChanges s t ∧
    (t.pc.toNat : Int) = ((s.pc.toNat : Int) + 1 + h.toInt) % 4096) ∧
  (∀ s : State, exec (.jz .r0 0xFF) s = .next { s with stale := [] }) ∧
  (∀ (x : Reg) (s : State), ∃ (t : State) (v : Word), exec (.xorS x 7) s = .next t ∧
    v.toNat = 4095 - (s.getReg x).toNat ∧ RegisterEffect s t x v 1) ∧
  (∀ (x : Reg) (s : State), ∃ (t : State) (v : Word), exec (.rsbS x 0) s = .next t ∧
    (v.toNat : Int) = -((s.getReg x).toNat : Int) % 4096 ∧ RegisterEffect s t x v 1) ∧
  (∀ (a : Word) (s : State), ∃ t, exec (.jrA .r1 .r0 a) s = .next t ∧ t.pc = a ∧
    ∀ b : State, b.getReg .r1 = t.getReg .r1 →
      ∃ u, exec (.jrR .r0 .r1) b = .next u ∧ u.pc.toNat = (s.pc.toNat + 2) % 4096 ∧ SameRegs b u ∧
        SameCells b u)
end

