-- ==== Sys2Proof/Laws/State.lean ====
section
/-! SUPPORT. One lemma per field per update of the state, so that no later proof unfolds a record update, and
the register file's read-after-write lemmas (R20 to R23). -/

namespace Sys2Proof.Machine

/-! ### Registers -/

@[simp] theorem State.setReg_pc (s : State) (x : Reg) (v : Word) : (s.setReg x v).pc = s.pc := by
  cases x <;> rfl

@[simp] theorem State.setReg_upc (s : State) (x : Reg) (v : Word) : (s.setReg x v).upc = s.upc := by
  cases x <;> rfl

@[simp] theorem State.setReg_user (s : State) (x : Reg) (v : Word) : (s.setReg x v).user = s.user := by
  cases x <;> rfl

@[simp] theorem State.setReg_mem (s : State) (x : Reg) (v : Word) : (s.setReg x v).mem = s.mem := by
  cases x <;> rfl

@[simp] theorem State.setReg_bus (s : State) (x : Reg) (v : Word) : (s.setReg x v).bus = s.bus := by
  cases x <;> rfl

@[simp] theorem State.setReg_irqInput (s : State) (x : Reg) (v : Word) : (s.setReg x v).irqInput = s.irqInput := by
  cases x <;> rfl

@[simp] theorem State.setReg_stale (s : State) (x : Reg) (v : Word) : (s.setReg x v).stale = s.stale := by
  cases x <;> rfl

@[simp] theorem State.setReg_busLog (s : State) (x : Reg) (v : Word) : (s.setReg x v).busLog = s.busLog := by
  cases x <;> rfl

@[simp] theorem State.setReg_draws (s : State) (x : Reg) (v : Word) : (s.setReg x v).draws = s.draws := by
  cases x <;> rfl

@[simp] theorem State.getReg_r0 (s : State) : s.getReg .r0 = 0 := rfl

@[simp] theorem State.setReg_r0 (s : State) (v : Word) : s.setReg .r0 v = s := rfl

/-- Reading back a written register; R0 stays zero (R22). -/
@[simp] theorem State.getReg_setReg_same (s : State) (x : Reg) (v : Word) :
    (s.setReg x v).getReg x = if x = .r0 then 0 else v := by
  cases x <;> rfl

/-- A write leaves every other register alone. -/
theorem State.getReg_setReg_other (s : State) (x r : Reg) (v : Word) (h : r ≠ x) :
    (s.setReg x v).getReg r = s.getReg r := by
  cases x <;> cases r <;> first | rfl | exact absurd rfl h

/-- A register reads the same in two states with the same register file. -/
theorem State.getReg_congr {s t : State} (h : t.regs = s.regs) (r : Reg) : t.getReg r = s.getReg r := by
  cases r <;> simp [State.getReg, h]

/-- A cell reads the same in two states with the same memory. -/
theorem State.cellWord_congr {s t : State} (h : t.mem = s.mem) (n : Nat) : t.cellWord n = s.cellWord n := by
  simp [State.cellWord, h]

/-! ### advance -/

@[simp] theorem State.advance_regs (s : State) (len : Word) : (s.advance len).regs = s.regs := rfl

@[simp] theorem State.advance_pc (s : State) (len : Word) : (s.advance len).pc = s.next len := rfl

@[simp] theorem State.advance_upc (s : State) (len : Word) : (s.advance len).upc = s.upc := rfl

@[simp] theorem State.advance_user (s : State) (len : Word) : (s.advance len).user = s.user := rfl

@[simp] theorem State.advance_mem (s : State) (len : Word) : (s.advance len).mem = s.mem := rfl

@[simp] theorem State.advance_bus (s : State) (len : Word) : (s.advance len).bus = s.bus := rfl

@[simp] theorem State.advance_irqInput (s : State) (len : Word) : (s.advance len).irqInput = s.irqInput := rfl

@[simp] theorem State.advance_stale (s : State) (len : Word) : (s.advance len).stale = s.stale.filter (fun e => e.1 == s.next len) := rfl

@[simp] theorem State.advance_busLog (s : State) (len : Word) : (s.advance len).busLog = s.busLog := rfl

@[simp] theorem State.advance_draws (s : State) (len : Word) : (s.advance len).draws = s.draws := rfl

@[simp] theorem State.advance_getReg (s : State) (len : Word) (r : Reg) :
    (s.advance len).getReg r = s.getReg r := by cases r <;> rfl

@[simp] theorem State.advance_cellWord (s : State) (len : Word) (n : Nat) :
    (s.advance len).cellWord n = s.cellWord n := rfl

/-! ### jump -/

@[simp] theorem State.jump_regs (s : State) (a : Word) : (s.jump a).regs = s.regs := rfl

@[simp] theorem State.jump_pc (s : State) (a : Word) : (s.jump a).pc = a := rfl

@[simp] theorem State.jump_upc (s : State) (a : Word) : (s.jump a).upc = s.upc := rfl

@[simp] theorem State.jump_user (s : State) (a : Word) : (s.jump a).user = s.user := rfl

@[simp] theorem State.jump_mem (s : State) (a : Word) : (s.jump a).mem = s.mem := rfl

@[simp] theorem State.jump_bus (s : State) (a : Word) : (s.jump a).bus = s.bus := rfl

@[simp] theorem State.jump_irqInput (s : State) (a : Word) : (s.jump a).irqInput = s.irqInput := rfl

@[simp] theorem State.jump_stale (s : State) (a : Word) : (s.jump a).stale = [] := rfl

@[simp] theorem State.jump_busLog (s : State) (a : Word) : (s.jump a).busLog = s.busLog := rfl

@[simp] theorem State.jump_draws (s : State) (a : Word) : (s.jump a).draws = s.draws := rfl

@[simp] theorem State.jump_getReg (s : State) (a : Word) (r : Reg) :
    (s.jump a).getReg r = s.getReg r := by cases r <;> rfl

@[simp] theorem State.jump_cellWord (s : State) (a : Word) (n : Nat) :
    (s.jump a).cellWord n = s.cellWord n := rfl

/-! ### afterRead -/

@[simp] theorem State.afterRead_regs (s : State) (q : BusRequest) (v : Word) : (s.afterRead q v).regs = s.regs := rfl

@[simp] theorem State.afterRead_pc (s : State) (q : BusRequest) (v : Word) : (s.afterRead q v).pc = s.pc := rfl

@[simp] theorem State.afterRead_upc (s : State) (q : BusRequest) (v : Word) : (s.afterRead q v).upc = s.upc := rfl

@[simp] theorem State.afterRead_user (s : State) (q : BusRequest) (v : Word) : (s.afterRead q v).user = s.user := rfl

@[simp] theorem State.afterRead_mem (s : State) (q : BusRequest) (v : Word) : (s.afterRead q v).mem = s.mem := rfl

@[simp] theorem State.afterRead_bus (s : State) (q : BusRequest) (v : Word) : (s.afterRead q v).bus = s.bus := rfl

@[simp] theorem State.afterRead_irqInput (s : State) (q : BusRequest) (v : Word) : (s.afterRead q v).irqInput = s.irqInput := rfl

@[simp] theorem State.afterRead_stale (s : State) (q : BusRequest) (v : Word) : (s.afterRead q v).stale = s.stale := rfl

@[simp] theorem State.afterRead_busLog (s : State) (q : BusRequest) (v : Word) : (s.afterRead q v).busLog = ⟨q, false, v⟩ :: s.busLog := rfl

@[simp] theorem State.afterRead_draws (s : State) (q : BusRequest) (v : Word) : (s.afterRead q v).draws = s.drawsAfterRead q := rfl

@[simp] theorem State.afterRead_getReg (s : State) (q : BusRequest) (v : Word) (r : Reg) :
    (s.afterRead q v).getReg r = s.getReg r := by cases r <;> rfl

@[simp] theorem State.afterRead_cellWord (s : State) (q : BusRequest) (v : Word) (n : Nat) :
    (s.afterRead q v).cellWord n = s.cellWord n := rfl

/-! ### busWrite -/

@[simp] theorem State.busWrite_regs (s : State) (q : BusRequest) (v : Word) : (s.busWrite q v).regs = s.regs := rfl

@[simp] theorem State.busWrite_pc (s : State) (q : BusRequest) (v : Word) : (s.busWrite q v).pc = s.pc := rfl

@[simp] theorem State.busWrite_upc (s : State) (q : BusRequest) (v : Word) : (s.busWrite q v).upc = s.upc := rfl

@[simp] theorem State.busWrite_user (s : State) (q : BusRequest) (v : Word) : (s.busWrite q v).user = s.user := rfl

@[simp] theorem State.busWrite_bus (s : State) (q : BusRequest) (v : Word) : (s.busWrite q v).bus = s.bus := rfl

@[simp] theorem State.busWrite_irqInput (s : State) (q : BusRequest) (v : Word) : (s.busWrite q v).irqInput = s.irqInput := rfl

@[simp] theorem State.busWrite_stale (s : State) (q : BusRequest) (v : Word) : (s.busWrite q v).stale = s.stale := rfl

@[simp] theorem State.busWrite_busLog (s : State) (q : BusRequest) (v : Word) : (s.busWrite q v).busLog = ⟨q, true, v⟩ :: s.busLog := rfl

@[simp] theorem State.busWrite_draws (s : State) (q : BusRequest) (v : Word) : (s.busWrite q v).draws = s.draws := rfl

@[simp] theorem State.busWrite_getReg (s : State) (q : BusRequest) (v : Word) (r : Reg) :
    (s.busWrite q v).getReg r = s.getReg r := by cases r <;> rfl

/-! ### takeBreak -/

@[simp] theorem State.takeBreak_regs (s : State) (n : IrqNum) (a : Word) : (s.takeBreak n a).regs = s.regs := rfl

@[simp] theorem State.takeBreak_pc (s : State) (n : IrqNum) (a : Word) : (s.takeBreak n a).pc = vectorAddress n := rfl

@[simp] theorem State.takeBreak_upc (s : State) (n : IrqNum) (a : Word) : (s.takeBreak n a).upc = a := rfl

@[simp] theorem State.takeBreak_user (s : State) (n : IrqNum) (a : Word) : (s.takeBreak n a).user = false := rfl

@[simp] theorem State.takeBreak_mem (s : State) (n : IrqNum) (a : Word) : (s.takeBreak n a).mem = s.mem := rfl

@[simp] theorem State.takeBreak_bus (s : State) (n : IrqNum) (a : Word) : (s.takeBreak n a).bus = s.bus := rfl

@[simp] theorem State.takeBreak_irqInput (s : State) (n : IrqNum) (a : Word) : (s.takeBreak n a).irqInput = s.irqInput := rfl

@[simp] theorem State.takeBreak_stale (s : State) (n : IrqNum) (a : Word) : (s.takeBreak n a).stale = [] := rfl

@[simp] theorem State.takeBreak_busLog (s : State) (n : IrqNum) (a : Word) : (s.takeBreak n a).busLog = s.busLog := rfl

@[simp] theorem State.takeBreak_draws (s : State) (n : IrqNum) (a : Word) : (s.takeBreak n a).draws = s.draws := rfl

@[simp] theorem State.takeBreak_getReg (s : State) (n : IrqNum) (a : Word) (r : Reg) :
    (s.takeBreak n a).getReg r = s.getReg r := by cases r <;> rfl

@[simp] theorem State.takeBreak_cellWord (s : State) (n : IrqNum) (a : Word) (k : Nat) :
    (s.takeBreak n a).cellWord k = s.cellWord k := rfl

/-! ### returnToUser -/

@[simp] theorem State.returnToUser_regs (s : State) (a : Word) : (s.returnToUser a).regs = s.regs := rfl

@[simp] theorem State.returnToUser_pc (s : State) (a : Word) : (s.returnToUser a).pc = a := rfl

@[simp] theorem State.returnToUser_upc (s : State) (a : Word) : (s.returnToUser a).upc = s.upc := rfl

@[simp] theorem State.returnToUser_user (s : State) (a : Word) : (s.returnToUser a).user = true := rfl

@[simp] theorem State.returnToUser_mem (s : State) (a : Word) : (s.returnToUser a).mem = s.mem := rfl

@[simp] theorem State.returnToUser_bus (s : State) (a : Word) : (s.returnToUser a).bus = s.bus := rfl

@[simp] theorem State.returnToUser_irqInput (s : State) (a : Word) : (s.returnToUser a).irqInput = s.irqInput := rfl

@[simp] theorem State.returnToUser_stale (s : State) (a : Word) : (s.returnToUser a).stale = [] := rfl

@[simp] theorem State.returnToUser_busLog (s : State) (a : Word) : (s.returnToUser a).busLog = s.busLog := rfl

@[simp] theorem State.returnToUser_draws (s : State) (a : Word) : (s.returnToUser a).draws = s.draws := rfl

@[simp] theorem State.returnToUser_getReg (s : State) (a : Word) (r : Reg) :
    (s.returnToUser a).getReg r = s.getReg r := by cases r <;> rfl

@[simp] theorem State.returnToUser_cellWord (s : State) (a : Word) (n : Nat) :
    (s.returnToUser a).cellWord n = s.cellWord n := rfl

/-! ### passBoundary -/

@[simp] theorem State.passBoundary_regs (s : State) : (s.passBoundary).regs = s.regs := rfl

@[simp] theorem State.passBoundary_pc (s : State) : (s.passBoundary).pc = s.pc := rfl

@[simp] theorem State.passBoundary_upc (s : State) : (s.passBoundary).upc = s.upc := rfl

@[simp] theorem State.passBoundary_user (s : State) : (s.passBoundary).user = s.user := rfl

@[simp] theorem State.passBoundary_mem (s : State) : (s.passBoundary).mem = s.mem := rfl

@[simp] theorem State.passBoundary_bus (s : State) : (s.passBoundary).bus = s.bus := rfl

@[simp] theorem State.passBoundary_irqInput (s : State) : (s.passBoundary).irqInput = s.irqInput.tail := rfl

@[simp] theorem State.passBoundary_stale (s : State) : (s.passBoundary).stale = s.stale := rfl

@[simp] theorem State.passBoundary_busLog (s : State) : (s.passBoundary).busLog = s.busLog := rfl

@[simp] theorem State.passBoundary_draws (s : State) : (s.passBoundary).draws = s.draws := rfl

@[simp] theorem State.passBoundary_getReg (s : State) (r : Reg) :
    (s.passBoundary).getReg r = s.getReg r := by cases r <;> rfl

@[simp] theorem State.passBoundary_cellWord (s : State) (n : Nat) :
    (s.passBoundary).cellWord n = s.cellWord n := rfl

/-! ### takeReset -/

@[simp] theorem State.takeReset_pc (s : State) : (s.takeReset).pc = 0x000 := rfl

@[simp] theorem State.takeReset_user (s : State) : (s.takeReset).user = false := rfl

@[simp] theorem State.takeReset_mem (s : State) : (s.takeReset).mem = Memory.ofWrites (Config.resetMemory s.draws s.busLog s.mem) := rfl

@[simp] theorem State.takeReset_bus (s : State) : (s.takeReset).bus = s.bus := rfl

@[simp] theorem State.takeReset_irqInput (s : State) : (s.takeReset).irqInput = s.irqInput := rfl

@[simp] theorem State.takeReset_stale (s : State) : (s.takeReset).stale = [] := rfl

@[simp] theorem State.takeReset_busLog (s : State) : (s.takeReset).busLog = s.busLog := rfl

@[simp] theorem State.takeReset_draws (s : State) : (s.takeReset).draws = s.draws + 1 := rfl

@[simp] theorem State.setReg_cellWord (s : State) (x : Reg) (v : Word) (n : Nat) :
    (s.setReg x v).cellWord n = s.cellWord n := State.cellWord_congr (by simp) n

@[simp] theorem State.setReg_next (s : State) (x : Reg) (v len : Word) :
    (s.setReg x v).next len = s.next len := by simp [State.next]

end Sys2Proof.Machine
end

