-- ==== Sys2Proof/Laws/Memory.lean ====
section
/-! SUPPORT. The laws of the memory: a read after a write gives the word written, a write leaves every other
cell alone, and every operation keeps the canonical form. -/

namespace Sys2Proof.Machine

@[simp] theorem Memory.read_nil (n : Nat) : Memory.read [] n = none := rfl

theorem Memory.read_write_same (m : Memory) (n : Nat) (v : Word) : (m.write n v).read n = some v := by
  induction m with
  | nil => simp [Memory.write, Memory.read]
  | cons e rest ih =>
    obtain ⟨k, u⟩ := e
    simp only [Memory.write]
    split
    · simp [Memory.read]
    · split
      · simp [Memory.read]
      · rename_i _ hne
        simp [Memory.read, Ne.symm hne, ih]

theorem Memory.read_write_other (m : Memory) (n k : Nat) (v : Word) (h : k ≠ n) :
    (m.write n v).read k = m.read k := by
  induction m with
  | nil => simp [Memory.write, Memory.read, Ne.symm h]
  | cons e rest ih =>
    obtain ⟨j, u⟩ := e
    simp only [Memory.write]
    split
    · simp [Memory.read, Ne.symm h]
    · split
      · rename_i _ hj
        subst hj
        simp [Memory.read, Ne.symm h]
      · simp only [Memory.read, ih]

/-- Every cell a write leaves listed was listed or is the one written. -/
theorem Memory.mem_write_fst (m : Memory) (n : Nat) (v : Word) (e : Nat × Word) (h : e ∈ m.write n v) :
    e.1 = n ∨ e ∈ m := by
  induction m with
  | nil => simp [Memory.write] at h; exact .inl (by rw [h])
  | cons d rest ih =>
    obtain ⟨j, u⟩ := d
    simp only [Memory.write] at h
    split at h
    · rcases List.mem_cons.1 h with rfl | h
      · exact .inl rfl
      · exact .inr h
    · split at h
      · rcases List.mem_cons.1 h with rfl | h
        · exact .inl rfl
        · exact .inr (List.mem_cons_of_mem _ h)
      · rcases List.mem_cons.1 h with rfl | h
        · exact .inr (List.mem_cons_self ..)
        · rcases ih h with h | h
          · exact .inl h
          · exact .inr (List.mem_cons_of_mem _ h)

/-- A write keeps the canonical form. -/
theorem Memory.wf_write (m : Memory) (n : Nat) (v : Word) (h : m.wf) : (m.write n v).wf := by
  induction m with
  | nil => simp [Memory.write, Memory.wf]
  | cons d rest ih =>
    obtain ⟨j, u⟩ := d
    obtain ⟨hj, hr⟩ := List.pairwise_cons.1 h
    simp only [Memory.write]
    split
    · rename_i hlt
      refine List.pairwise_cons.2 ⟨?_, h⟩
      intro e he
      rcases List.mem_cons.1 he with rfl | he
      · exact hlt
      · exact Nat.lt_trans hlt (hj e he)
    · split
      · rename_i _ heq
        subst heq
        exact List.pairwise_cons.2 ⟨hj, hr⟩
      · rename_i hle hne
        refine List.pairwise_cons.2 ⟨?_, ih hr⟩
        intro e he
        rcases Memory.mem_write_fst _ _ _ _ he with h' | h'
        · simp only [h']; omega
        · exact hj e h'

/-- What a list of writes leaves is in canonical form. -/
theorem Memory.wf_ofWrites (ws : List (Nat × Word)) : (Memory.ofWrites ws).wf := by
  induction ws with
  | nil => simp [Memory.ofWrites, Memory.wf]
  | cons e rest ih => exact Memory.wf_write _ _ _ ih

/-- The memory after reset is in canonical form. -/
theorem State.reset_wf : State.reset.mem.wf := List.Pairwise.nil

/-- A bus write keeps the canonical form. -/
theorem State.wf_busWrite (s : State) (q : BusRequest) (v : Word) (h : s.mem.wf) :
    (s.busWrite q v).mem.wf := by
  unfold State.busWrite
  dsimp only
  split
  · exact Memory.wf_write _ _ _ h
  · exact h
  · exact h

/-- A bus write that reaches a memory cell: the cell takes the word. -/
theorem State.cellWord_busWrite_same (s : State) (q : BusRequest) (v : Word) (n : Nat)
    (h : busTarget s.bus q = .cell n) : (s.busWrite q v).cellWord n = v := by
  simp [State.cellWord, State.busWrite, h, Memory.read_write_same]

/-- A bus write leaves every cell it does not reach alone. -/
theorem State.cellWord_busWrite_other (s : State) (q : BusRequest) (v : Word) (n : Nat)
    (h : busTarget s.bus q ≠ .cell n) : (s.busWrite q v).cellWord n = s.cellWord n := by
  unfold State.busWrite State.cellWord
  dsimp only
  split
  · rename_i k hk
    have : n ≠ k := fun e => h (by rw [hk, e])
    rw [Memory.read_write_other _ _ _ _ this]
  · rfl
  · rfl

end Sys2Proof.Machine
end

