-- ==== Sys2Proof/Laws/Ops.lean ====
section
/-! SUPPORT. For each shared operation one lemma that says everything it can do, in the words of
Sys2Proof/Safety.lean: cite it instead of unfolding the operation. -/

namespace Sys2Proof

@[simp] theorem Reg.ofBits_bits (x : Reg) : Reg.ofBits x.bits = x := by cases x <;> rfl

@[simp] theorem Reg.bits_ofBits (b : BitVec 3) : (Reg.ofBits b).bits = b := by
  revert b
  decide

@[simp] theorem Reg.bits_eq_zero (x : Reg) : x.bits = 0#3 ↔ x = .r0 := by
  cases x <;> simp [Reg.bits]

@[simp] theorem Reg.ofBits_eq_r0 (b : BitVec 3) : Reg.ofBits b = .r0 ↔ b = 0#3 := by
  revert b
  decide

end Sys2Proof

namespace Sys2Proof.Machine

/-- PC arithmetic is modulo 4096 (R26). -/
theorem State.next_toNat (s : State) (len : Nat) :
    (s.next (BitVec.ofNat 12 len)).toNat = (s.pc.toNat + len) % 4096 := by
  simp [State.next, BitVec.toNat_add]

theorem State.next_one_toNat (s : State) : (s.next 1).toNat = (s.pc.toNat + 1) % 4096 := s.next_toNat 1

theorem State.next_two_toNat (s : State) : (s.next 2).toNat = (s.pc.toNat + 2) % 4096 := s.next_toNat 2

/-- The address of a vector slot is `8 * n` (R251). -/
theorem vectorAddress_toNat (n : IrqNum) : (vectorAddress n).toNat = 8 * n.toNat := by
  revert n
  decide

/-- What `writeBack` does. -/
theorem State.writeBack_effect (s : State) (x : Reg) (v : Word) (len : Nat) :
    RegisterEffect s (s.writeBack x v (BitVec.ofNat 12 len)) x v len := by
  refine ⟨?_, ?_, ?_, ⟨?_, ?_⟩, ?_, ⟨?_, ?_⟩, ?_, ?_⟩
  · simp [Holds, State.writeBack]
  · intro r hr
    simp [State.writeBack, State.getReg_setReg_other _ _ _ _ hr]
  · simp [State.writeBack, State.next_toNat]
  all_goals simp [State.writeBack, SameCells]

/-- What `load` does. -/
theorem State.load_effect (s : State) (x : Reg) (a : Word) (len : Nat) :
    LoadEffect s (s.load x a (BitVec.ofNat 12 len)) x a len := by
  refine ⟨s.memRead a, ?_, ?_, ?_, ⟨?_, ?_⟩, ?_, ⟨?_, ?_⟩, ?_, ?_⟩
  · simp [Holds, State.load]
  · intro r hr
    simp [State.load, State.afterMemRead, State.getReg_setReg_other _ _ _ _ hr]
  · simp [State.load, State.afterMemRead, State.next, BitVec.toNat_add]
  any_goals simp [State.load, State.afterMemRead, SameCells, State.dataRequest]
  split <;> simp [State.drawsAfterRead, State.memRead, State.busAnswer, State.dataRequest, *]

/-- What `store` does to the fields of the state it does not name. -/
theorem State.store_cellWord (s : State) (x : Reg) (a len : Word) (n : Nat) :
    (s.store x a len).cellWord n = (s.memWrite a (s.getReg x)).cellWord n := rfl

/-- What `store` does. -/
theorem State.store_effect (s : State) (x : Reg) (a : Word) (len : Nat) :
    StoreEffect s (s.store x a (BitVec.ofNat 12 len)) a (s.getReg x) len := by
  refine ⟨?_, ?_, ⟨rfl, rfl⟩, ⟨rfl, rfl⟩, rfl, rfl, ?_⟩
  · intro r
    exact State.getReg_congr rfl r
  · exact s.next_toNat len
  · have frame : ∀ m, busTarget s.bus ⟨s.user, false, a⟩ ≠ .cell m →
        (s.store x a (BitVec.ofNat 12 len)).cellWord m = s.cellWord m :=
      fun m h => State.cellWord_busWrite_other s _ _ m h
    split
    · rename_i n h
      exact ⟨State.cellWord_busWrite_same s _ _ n h, fun m hm => frame m (by rw [h]; simpa using Ne.symm hm)⟩
    · rename_i n h
      exact fun m => frame m (by rw [h]; simp)
    · rename_i h
      exact fun m => frame m (by rw [h]; simp)

/-- What `jumpAndLink` does. -/
theorem State.jumpAndLink_effect (s : State) (x : Reg) (t : Word) (len : Nat) :
    LinkEffect s (s.jumpAndLink x t (BitVec.ofNat 12 len)) x t len := by
  refine ⟨⟨s.next (BitVec.ofNat 12 len), s.next_toNat len, ?_⟩, ?_, rfl, ⟨?_, ?_⟩, ?_, ⟨?_, ?_⟩, ?_, ?_⟩
  · simp [Holds, State.jumpAndLink]
  · intro r hr
    simp [State.jumpAndLink, State.getReg_setReg_other _ _ _ _ hr]
  all_goals simp [State.jumpAndLink, SameCells]

/-- What taking a trap does (R254). -/
theorem State.takeBreak_effect (s : State) (n : IrqNum) (ret : Word) :
    TrapEffect s (s.takeBreak n ret) n ret :=
  ⟨rfl, rfl, vectorAddress_toNat n, fun r => by simp, fun _ => rfl, rfl, rfl, rfl⟩

/-- What returning to user mode does (R263). -/
theorem State.returnToUser_effect (s : State) (t : Word) : ReturnEffect s (s.returnToUser t) t :=
  ⟨rfl, rfl, rfl, fun r => by simp, fun _ => rfl, ⟨rfl, rfl⟩, rfl, rfl⟩

/-- What a BRK word does in user mode (R110). -/
theorem State.breakWord_user (s : State) (x : IrqNum) (h : s.user = true) :
    s.breakWord x = s.takeBreak x (s.next 1) := by simp [State.breakWord, h]

/-- What the word 0x000 does in machine mode (R112). -/
theorem State.breakWord_machine_zero (s : State) (h : s.user = false) :
    s.breakWord 0 = s.returnToUser s.upc := by simp [State.breakWord, h]

/-- What the other BRK words do in machine mode (R113). -/
theorem State.breakWord_machine (s : State) (x : Reg) (h : s.user = false) (hx : x ≠ .r0) :
    s.breakWord x.bits = s.returnToUser (s.getReg x) := by
  have hb : ¬ x.bits = 0 := fun e => hx ((Reg.bits_eq_zero x).1 e)
  simp only [State.breakWord, h, Reg.ofBits_bits, Bool.false_eq_true, if_false, if_neg hb]

/-- What a reset request does to the state the spec gives it a value for, and to what is not state of the
CPU (R262). -/
theorem State.takeReset_effect (s : State) :
    s.takeReset.pc = 0x000 ∧ s.takeReset.user = false ∧ s.takeReset.mem.wf ∧ s.takeReset.stale = [] ∧
      s.takeReset.bus = s.bus ∧ s.takeReset.irqInput = s.irqInput ∧ s.takeReset.busLog = s.busLog :=
  ⟨rfl, rfl, Memory.wf_ofWrites _, rfl, rfl, rfl, rfl⟩

/-- The request a boundary selects is the present one with the lowest number (R261). -/
theorem highestRequest_eq_some (l : BitVec 8) (n : IrqNum) :
    highestRequest l = some n ↔ l.getLsbD n.toNat = true ∧ ∀ m : IrqNum, m < n → l.getLsbD m.toNat = false := by
  revert l n
  decide

/-- A boundary is a reset exactly when irq 0 is requested, in either mode (R262). -/
theorem boundaryOf_eq_reset (user : Bool) (l : BitVec 8) :
    boundaryOf user l = .reset ↔ l.getLsbD 0 = true := by
  revert user l
  decide

/-- In machine mode no boundary is an interrupt (R259). -/
theorem boundaryOf_machine (l : BitVec 8) :
    boundaryOf false l = if l.getLsbD 0 then .reset else .execute := by
  revert l
  decide

/-- An interrupt n is taken in user mode only, and only when n is the lowest-numbered request (R257, R261). -/
theorem boundaryOf_eq_interrupt (user : Bool) (l : BitVec 8) (n : IrqNum) :
    boundaryOf user l = .interrupt n ↔ user = true ∧ n ≠ 0 ∧ highestRequest l = some n := by
  revert user l n
  decide

/-- An expansion runs its first instruction and then the others. -/
theorem execList_cons (i : Instr) (rest : List Instr) (s t : State) (h : exec i s = .next t) :
    execList (i :: rest) s = execList rest t := by
  simp only [execList, h]

/-- `SUB SP, #Y` lowers SP by Y, in one word where Y is at most 7 and in two otherwise (R96c, R235). -/
theorem exec_makeRoom (y : Word) (s : State) :
    exec (makeRoom y) s =
      .next (s.writeBack .r7 (s.getReg .r7 - y) (BitVec.ofNat 12 (if y.toNat < 8 then 1 else 2))) := by
  unfold makeRoom shortOrLong
  by_cases h : y.toNat < 8
  · have hf : fitsUimm3 y = true := by
      simp only [fitsUimm3, uimm3, beq_iff_eq]
      apply BitVec.eq_of_toNat_eq
      simp
      omega
    have hy : uimm3 (y.setWidth 3) = y := by simpa [fitsUimm3] using hf
    rw [if_pos hf, if_pos h]
    simp [exec, execSubS, hy]
  · have hf : ¬ fitsUimm3 y = true := by
      intro hf
      have hy : uimm3 (y.setWidth 3) = y := by simpa [fitsUimm3] using hf
      have := congrArg BitVec.toNat hy
      simp [uimm3] at this
      omega
    rw [if_neg hf, if_neg h]
    rfl

end Sys2Proof.Machine
end

