-- ==== Sys2Proof/Laws/Decode.lean ====
section
/-! SUPPORT. The fields of the encoder's words, and the words as the decoder's fields give them back. -/

namespace Sys2Proof

theorem encodeOp_toNat (x : BitVec 3) (m : Bool) (y : BitVec 3) (op : BitVec 4) :
    (encodeOp x m y op).toNat = 0x800 + 0x100 * x.toNat + 0x080 * m.toNat + 0x010 * y.toNat + op.toNat := by
  have := x.isLt
  have := y.isLt
  have := op.isLt
  have := Bool.toNat_le m
  simp only [encodeOp, BitVec.toNat_ofNat]
  omega

theorem encodeB_toNat (x : BitVec 3) (h : BitVec 8) : (encodeB x h).toNat = 0x100 * x.toNat + h.toNat := by
  have := x.isLt
  have := h.isLt
  simp only [encodeB, BitVec.toNat_ofNat]
  omega

theorem fieldX_toNat (w : Word) : (fieldX w).toNat = w.toNat / 256 % 8 := by
  simp [fieldX, Nat.shiftRight_eq_div_pow]

theorem fieldY_toNat (w : Word) : (fieldY w).toNat = w.toNat / 16 % 8 := by
  simp [fieldY, Nat.shiftRight_eq_div_pow]

theorem fieldOp_toNat (w : Word) : (fieldOp w).toNat = w.toNat % 16 := by
  simp [fieldOp]

theorem fieldH_toNat (w : Word) : (fieldH w).toNat = w.toNat % 256 := by
  simp [fieldH]

theorem fieldM_eq (w : Word) : fieldM w = decide (w.toNat / 128 % 2 = 1) := by
  simp [fieldM, BitVec.getLsbD, Nat.testBit_eq_decide_div_mod_eq]

theorem fieldTop_eq (w : Word) : fieldTop w = decide (w.toNat / 2048 % 2 = 1) := by
  simp [fieldTop, BitVec.getLsbD, Nat.testBit_eq_decide_div_mod_eq]

section

variable (x : BitVec 3) (m : Bool) (y : BitVec 3) (op : BitVec 4) (h : BitVec 8)

@[simp] theorem fieldX_encodeOp : fieldX (encodeOp x m y op) = x := by
  apply BitVec.eq_of_toNat_eq
  rw [fieldX_toNat, encodeOp_toNat]
  have := x.isLt; have := y.isLt; have := op.isLt; have := Bool.toNat_le m
  omega

@[simp] theorem fieldY_encodeOp : fieldY (encodeOp x m y op) = y := by
  apply BitVec.eq_of_toNat_eq
  rw [fieldY_toNat, encodeOp_toNat]
  have := x.isLt; have := y.isLt; have := op.isLt; have := Bool.toNat_le m
  omega

@[simp] theorem fieldOp_encodeOp : fieldOp (encodeOp x m y op) = op := by
  apply BitVec.eq_of_toNat_eq
  rw [fieldOp_toNat, encodeOp_toNat]
  have := x.isLt; have := y.isLt; have := op.isLt; have := Bool.toNat_le m
  omega

@[simp] theorem fieldM_encodeOp : fieldM (encodeOp x m y op) = m := by
  rw [fieldM_eq, encodeOp_toNat]
  have := x.isLt; have := y.isLt; have := op.isLt
  cases m <;> simp <;> omega

@[simp] theorem fieldTop_encodeOp : fieldTop (encodeOp x m y op) = true := by
  rw [fieldTop_eq, encodeOp_toNat]
  have := x.isLt; have := y.isLt; have := op.isLt; have := Bool.toNat_le m
  simp only [decide_eq_true_eq]
  omega

@[simp] theorem fieldX_encodeB : fieldX (encodeB x h) = x := by
  apply BitVec.eq_of_toNat_eq
  rw [fieldX_toNat, encodeB_toNat]
  have := x.isLt; have := h.isLt
  omega

@[simp] theorem fieldH_encodeB : fieldH (encodeB x h) = h := by
  apply BitVec.eq_of_toNat_eq
  rw [fieldH_toNat, encodeB_toNat]
  have := x.isLt; have := h.isLt
  omega

@[simp] theorem fieldTop_encodeB : fieldTop (encodeB x h) = false := by
  rw [fieldTop_eq, encodeB_toNat]
  have := x.isLt; have := h.isLt
  simp only [decide_eq_false_iff_not]
  omega

end

/-- A word of the 16-opcode space is the word of its fields (R86). -/
theorem encodeOp_fields (w : Word) (h : fieldTop w = true) :
    encodeOp (fieldX w) (fieldM w) (fieldY w) (fieldOp w) = w := by
  apply BitVec.eq_of_toNat_eq
  rw [encodeOp_toNat, fieldX_toNat, fieldY_toNat, fieldOp_toNat, fieldM_eq]
  rw [fieldTop_eq, decide_eq_true_eq] at h
  have := w.isLt
  by_cases hm : w.toNat / 128 % 2 = 1 <;> simp [hm] <;> omega

/-- A word with bit 11 = 0 is the word of its fields (R81). -/
theorem encodeB_fields (w : Word) (h : fieldTop w = false) : encodeB (fieldX w) (fieldH w) = w := by
  apply BitVec.eq_of_toNat_eq
  rw [encodeB_toNat, fieldX_toNat, fieldH_toNat]
  rw [fieldTop_eq, decide_eq_false_iff_not] at h
  have := w.isLt
  omega

end Sys2Proof
end

