-- ==== Sys2Proof/Laws/Fetch.lean ====
section
/-! SUPPORT. What fetching does outside the prefetch window, what a code request finds after an instruction
has been placed, and that the step after `withFetchWord` runs exactly the placed instruction. -/

namespace Sys2Proof.Machine

/-- With no older word in the prefetch window, a fetch delivers what the bus answers. -/
theorem State.fetchWord_of_no_stale (s : State) (a : Word) (h : s.stale = []) :
    s.fetchWord a = s.busAnswer (s.codeRequest a) := by
  simp [State.fetchWord, State.staleWords, h]

/-- A read of a memory cell answers the cell's word. -/
theorem State.busAnswer_cell (s : State) (q : BusRequest) (n : Nat) (h : busTarget s.bus q = .cell n) :
    s.busAnswer q = s.cellWord n := by
  simp [State.busAnswer, h]

/-- With no older word in the prefetch window, a fetch from a memory cell delivers the cell's word. -/
theorem State.fetchWord_cell (s : State) (a : Word) (n : Nat) (h : s.stale = [])
    (ht : busTarget s.bus (s.codeRequest a) = .cell n) : s.fetchWord a = s.cellWord n := by
  rw [s.fetchWord_of_no_stale a h, s.busAnswer_cell _ n ht]

/-- Outside the prefetch window a fetch from a memory cell changes the record of the bus only. -/
theorem State.afterFetch_cell (s : State) (a : Word) (n : Nat) (h : s.stale = [])
    (ht : busTarget s.bus (s.codeRequest a) = .cell n) :
    s.afterFetch a = { s with busLog := ⟨s.codeRequest a, false, s.cellWord n⟩ :: s.busLog } := by
  simp [State.afterFetch, State.staleWords, h, State.afterRead, State.drawsAfterRead, ht,
    s.fetchWord_cell a n h ht]

/-- What one fetch does: it records a code read in the current mode and may draw free values; nothing else
changes. -/
theorem State.afterFetch_effect (s : State) (a : Word) :
    ∃ d, s.afterFetch a =
      { s with draws := d, busLog := ⟨s.codeRequest a, false, s.fetchWord a⟩ :: s.busLog } := by
  unfold State.afterFetch
  dsimp only
  split <;> exact ⟨_, rfl⟩

/-- What the fetch of an instruction does: it records its one or two code reads, at PC and PC + 1, and may draw
free values; nothing else changes. -/
theorem State.afterInstrFetch_effect (s : State) :
    ∃ d code, s.afterInstrFetch = { s with draws := d, busLog := code ++ s.busLog } ∧
      (∀ e ∈ code, e.request.user = s.user ∧ e.request.code = true ∧ e.write = false) ∧
      (code.map fun e => e.request.addr) ∈ [[s.pc], [s.pc + 1, s.pc]] := by
  obtain ⟨d, hd⟩ := s.afterFetch_effect s.pc
  obtain ⟨d', hd'⟩ := (s.afterFetch s.pc).afterFetch_effect (s.pc + 1)
  unfold State.afterInstrFetch
  dsimp only
  split
  · exact ⟨d, [_], hd, by simp [State.codeRequest], by simp [State.codeRequest]⟩
  · refine ⟨d', [⟨(s.afterFetch s.pc).codeRequest (s.pc + 1), false,
      (s.afterFetch s.pc).fetchWord (s.pc + 1)⟩, ⟨s.codeRequest s.pc, false, s.fetchWord s.pc⟩], ?_, ?_, ?_⟩
    · rw [hd', hd]
      rfl
    · simp [State.codeRequest, hd]
    · simp [State.codeRequest]

/-- The decoder reads one word and leaves the rest for the instructions that are one word long. -/
theorem instrOf_one (user : Bool) (w : Word) (h : instrLen Config.imm12Select w = 1) :
    instrOf user [w] = decodeWords Config.imm12Select user w 0 := by
  simp [instrOf, decode, h]

/-- It reads the immediate word of the others. -/
theorem instrOf_two (user : Bool) (w imm : Word) (h : instrLen Config.imm12Select w ≠ 1) :
    instrOf user [w, imm] = decodeWords Config.imm12Select user w imm := by
  simp [instrOf, decode, h]

/-- A region of one address holds the code requests for that address in its mode. -/
theorem busTarget_withHomeCode_same (m : BusMap) (user : Bool) (a : Word) :
    busTarget (withHomeCode m user a) ⟨user, true, a⟩ = .cell (homeCell ⟨user, true, a⟩) := by
  simp [busTarget, withHomeCode, regionHolds, shiftTarget]

/-- It holds no other request. -/
theorem busTarget_withHomeCode_other (m : BusMap) (user : Bool) (a : Word) (q : BusRequest)
    (h : q ≠ ⟨user, true, a⟩) : busTarget (withHomeCode m user a) q = busTarget m q := by
  have hf : regionHolds ⟨user, true, a.toNat, 1, .cell (homeCell ⟨user, true, a⟩)⟩ q = false := by
    rw [Bool.eq_false_iff]
    intro hh
    apply h
    obtain ⟨qu, qc, qa⟩ := q
    simp only [regionHolds, Bool.and_eq_true, beq_iff_eq, decide_eq_true_eq] at hh
    obtain ⟨⟨⟨hu, hc⟩, h1⟩, h2⟩ := hh
    have ha : qa = a := BitVec.eq_of_toNat_eq (by omega)
    rw [← hu, ← hc, ha]
  simp [busTarget, withHomeCode, hf]

/-- Two addresses of one address space have two home cells. -/
theorem homeCell_ne (user code : Bool) (a b : Word) (h : a ≠ b) :
    homeCell ⟨user, code, a⟩ ≠ homeCell ⟨user, code, b⟩ := by
  intro e
  apply h
  simp only [homeCell] at e
  exact BitVec.eq_of_toNat_eq (by omega)

theorem word_ne_succ (a : Word) : a ≠ a + 1 := by
  intro h
  have := congrArg BitVec.toNat h
  rw [BitVec.toNat_add] at this
  have := a.isLt
  simp at *

theorem State.placeInstr_pc (s : State) (w imm : Word) : (s.placeInstr w imm).pc = s.pc := by
  unfold State.placeInstr State.placeAtHome
  split
  · split <;> rfl
  · rfl

theorem State.placeInstr_user (s : State) (w imm : Word) : (s.placeInstr w imm).user = s.user := by
  unfold State.placeInstr State.placeAtHome
  split
  · split <;> rfl
  · rfl

/-- After an instruction has been placed, the next two code addresses are two memory cells that hold its
words. -/
theorem State.placeInstr_cells (s : State) (w imm : Word) :
    ∃ m n, m ≠ n ∧ busTarget (s.placeInstr w imm).bus ⟨s.user, true, s.pc⟩ = .cell m ∧
      busTarget (s.placeInstr w imm).bus ⟨s.user, true, s.pc + 1⟩ = .cell n ∧
      (s.placeInstr w imm).mem.read m = some w ∧ (s.placeInstr w imm).mem.read n = some imm := by
  have home : ∃ m n, m ≠ n ∧ busTarget (s.placeAtHome w imm).bus ⟨s.user, true, s.pc⟩ = .cell m ∧
      busTarget (s.placeAtHome w imm).bus ⟨s.user, true, s.pc + 1⟩ = .cell n ∧
      (s.placeAtHome w imm).mem.read m = some w ∧ (s.placeAtHome w imm).mem.read n = some imm := by
    have hne := homeCell_ne s.user true _ _ (word_ne_succ s.pc)
    refine ⟨homeCell ⟨s.user, true, s.pc⟩, homeCell ⟨s.user, true, s.pc + 1⟩, hne, ?_, ?_, ?_, ?_⟩
    · simp only [State.placeAtHome]
      rw [busTarget_withHomeCode_other _ _ _ _ (by simp), busTarget_withHomeCode_same]
    · simp only [State.placeAtHome]
      exact busTarget_withHomeCode_same _ _ _
    · simp only [State.placeAtHome, State.codeRequest]
      rw [Memory.read_write_other _ _ _ _ hne, Memory.read_write_same]
    · simp only [State.placeAtHome, State.codeRequest]
      exact Memory.read_write_same _ _ _
  unfold State.placeInstr
  split
  · rename_i m n hm hn
    split
    · exact home
    · rename_i hne
      exact ⟨m, n, hne, hm, hn, by rw [Memory.read_write_other _ _ _ _ hne, Memory.read_write_same],
        Memory.read_write_same _ _ _⟩
  · exact home

/-- The step after `withFetchWord` consults a quiet boundary. -/
theorem State.withFetchWord_boundary (s : State) (nbits w : Nat) :
    (s.withFetchWord nbits w).boundary = .execute := by
  have h0 : ((s.withFetchWord nbits w).irqInput.headD 0) = 0 := by
    simp only [State.withFetchWord, State.emptyWindow, State.quietBoundary]
    split <;> rfl
  rw [State.boundary, h0]
  cases (s.withFetchWord nbits w).user <;> decide

/-- The step after `withFetchWord` runs exactly the placed instruction: what the decoder reads from the bits
in the state's mode. -/
theorem State.step_withFetchWord (s : State) (nbits w : Nat) :
    step (s.withFetchWord nbits w) =
      exec (instrOf s.user
          [BitVec.ofNat 12 (w % 2 ^ nbits), BitVec.ofNat 12 (w % 2 ^ nbits / 4096)])
        (s.withFetchWord nbits w).passBoundary.afterInstrFetch := by
  simp only [step, State.withFetchWord_boundary]
  congr 1
  generalize hw : BitVec.ofNat 12 (w % 2 ^ nbits) = w0
  generalize hi : BitVec.ofNat 12 (w % 2 ^ nbits / 4096) = w1
  obtain ⟨m, n, -, hm, hn, rm, rn⟩ := s.placeInstr_cells w0 w1
  have key : ∀ t : State, t.pc = s.pc → t.user = s.user → t.bus = (s.placeInstr w0 w1).bus →
      t.mem = (s.placeInstr w0 w1).mem → t.stale = [] → t.fetchedInstr = instrOf s.user [w0, w1] := by
    intro t hpc hu hb hmem hst
    have h0 : t.fetchWord t.pc = w0 := by
      rw [t.fetchWord_cell t.pc m hst (by simp [State.codeRequest, hpc, hu, hb, hm])]
      simp [State.cellWord, hmem, rm]
    have h1 : (t.afterFetch t.pc).fetchWord (t.pc + 1) = w1 := by
      rw [t.afterFetch_cell t.pc m hst (by simp [State.codeRequest, hpc, hu, hb, hm])]
      rw [State.fetchWord_cell _ (t.pc + 1) n (by simp [hst]) (by
        simpa [State.codeRequest, hpc, hu, hb] using hn)]
      simp [State.cellWord, hmem, rn]
    simp only [State.fetchedInstr, State.fetchedWords, h0, h1, hu]
    split
    · rename_i hl
      simp [instrOf, decode, hl]
    · rfl
  refine key _ ?_ ?_ ?_ ?_ ?_ <;>
    simp [State.withFetchWord, State.emptyWindow, State.quietBoundary, hw, hi, State.placeInstr_pc,
      State.placeInstr_user]

end Sys2Proof.Machine
end

