-- ==== Sys2Proof/Laws/PerInstr.lean ====
section
/-! SUPPORT. Statements about every instruction as syntax, one lemma per constructor. The family
LengthFromFirstWord says R88: the length of a well-formed instruction is known from its first word alone. -/

namespace Sys2Proof.Laws.LengthFromFirstWord

/-- The first word of a well-formed instruction tells how many words it has (R88). -/
def Statement (i : Instr) : Prop :=
  ∀ sel, i.wellFormed sel = true →
    ∃ w rest, encode sel i = w :: rest ∧ instrLen sel w = (encode sel i).length

theorem reu : Statement .reu := by
  intro sel hw
  exact ⟨_, [], rfl, by simp [encode, instrLen]⟩

theorem brk (n : IrqNum) : Statement (.brk n) := by
  intro sel hw
  exact ⟨_, [], rfl, by simp [encode, instrLen]⟩

theorem jru (x : Reg) : Statement (.jru x) := by
  intro sel hw
  exact ⟨_, [], rfl, by simp [encode, instrLen]⟩

theorem jz (x : Reg) (h : BitVec 8) : Statement (.jz x h) := by
  intro sel hw
  exact ⟨_, [], rfl, by simp [encode, instrLen]⟩

theorem lwR (x y : Reg) : Statement (.lwR x y) := by
  intro sel hw
  exact ⟨_, [], rfl, by simp [encode, encodeR, instrLen]⟩

theorem lwA (x y : Reg) (i : Word) : Statement (.lwA x y i) := by
  intro sel hw
  exact ⟨_, [i], rfl, by simp [encode, encodeA, instrLen]⟩

theorem swR (x y : Reg) : Statement (.swR x y) := by
  intro sel hw
  exact ⟨_, [], rfl, by simp [encode, encodeR, instrLen]⟩

theorem swA (x y : Reg) (i : Word) : Statement (.swA x y i) := by
  intro sel hw
  exact ⟨_, [i], rfl, by simp [encode, encodeA, instrLen]⟩

theorem jrR (x y : Reg) : Statement (.jrR x y) := by
  intro sel hw
  exact ⟨_, [], rfl, by simp [encode, encodeR, instrLen]⟩

theorem jrA (x y : Reg) (i : Word) : Statement (.jrA x y i) := by
  intro sel hw
  exact ⟨_, [i], rfl, by simp [encode, encodeA, instrLen]⟩

theorem mvR (x y : Reg) : Statement (.mvR x y) := by
  intro sel hw
  exact ⟨_, [], rfl, by
    cases sel <;> simp_all [encode, encodeR, instrLen, longSelected, Instr.wellFormed, regFormOk]⟩

theorem mvS (x : Reg) (y : BitVec 3) : Statement (.mvS x y) := by
  intro sel hw
  exact ⟨_, [], rfl, by
    cases sel <;> simp_all [encode, encodeS, instrLen, longSelected, Instr.wellFormed, shortFormOk]⟩

theorem mvL (x : Reg) (i : Word) : Statement (.mvL x i) := by
  intro sel hw
  exact ⟨_, [i], rfl, by cases sel <;> simp [encode, encodeL, instrLen, longSelected]⟩

theorem lslR (x y : Reg) : Statement (.lslR x y) := by
  intro sel hw
  exact ⟨_, [], rfl, by simp [encode, encodeR, instrLen]⟩

theorem lslS (x : Reg) (y : BitVec 3) : Statement (.lslS x y) := by
  intro sel hw
  exact ⟨_, [], rfl, by simp [encode, encodeS, instrLen]⟩

theorem lsrR (x y : Reg) : Statement (.lsrR x y) := by
  intro sel hw
  exact ⟨_, [], rfl, by simp [encode, encodeR, instrLen]⟩

theorem lsrS (x : Reg) (y : BitVec 3) : Statement (.lsrS x y) := by
  intro sel hw
  exact ⟨_, [], rfl, by simp [encode, encodeS, instrLen]⟩

theorem asrR (x y : Reg) : Statement (.asrR x y) := by
  intro sel hw
  exact ⟨_, [], rfl, by simp [encode, encodeR, instrLen]⟩

theorem asrS (x : Reg) (y : BitVec 3) : Statement (.asrS x y) := by
  intro sel hw
  exact ⟨_, [], rfl, by simp [encode, encodeS, instrLen]⟩

theorem eqR (x y : Reg) : Statement (.eqR x y) := by
  intro sel hw
  exact ⟨_, [], rfl, by
    cases sel <;> simp_all [encode, encodeR, instrLen, longSelected, Instr.wellFormed, regFormOk]⟩

theorem eqS (x : Reg) (y : BitVec 3) : Statement (.eqS x y) := by
  intro sel hw
  exact ⟨_, [], rfl, by
    cases sel <;> simp_all [encode, encodeS, instrLen, longSelected, Instr.wellFormed, shortFormOk]⟩

theorem eqL (x : Reg) (i : Word) : Statement (.eqL x i) := by
  intro sel hw
  exact ⟨_, [i], rfl, by cases sel <;> simp [encode, encodeL, instrLen, longSelected]⟩

theorem lrR (x y : Reg) : Statement (.lrR x y) := by
  intro sel hw
  exact ⟨_, [], rfl, by
    cases sel <;> simp_all [encode, encodeR, instrLen, longSelected, Instr.wellFormed, regFormOk]⟩

theorem lrS (x : Reg) (y : BitVec 3) : Statement (.lrS x y) := by
  intro sel hw
  exact ⟨_, [], rfl, by
    cases sel <;> simp_all [encode, encodeS, instrLen, longSelected, Instr.wellFormed, shortFormOk]⟩

theorem lrL (x : Reg) (i : Word) : Statement (.lrL x i) := by
  intro sel hw
  exact ⟨_, [i], rfl, by cases sel <;> simp [encode, encodeL, instrLen, longSelected]⟩

theorem grR (x y : Reg) : Statement (.grR x y) := by
  intro sel hw
  exact ⟨_, [], rfl, by
    cases sel <;> simp_all [encode, encodeR, instrLen, longSelected, Instr.wellFormed, regFormOk]⟩

theorem grS (x : Reg) (y : BitVec 3) : Statement (.grS x y) := by
  intro sel hw
  exact ⟨_, [], rfl, by
    cases sel <;> simp_all [encode, encodeS, instrLen, longSelected, Instr.wellFormed, shortFormOk]⟩

theorem grL (x : Reg) (i : Word) : Statement (.grL x i) := by
  intro sel hw
  exact ⟨_, [i], rfl, by cases sel <;> simp [encode, encodeL, instrLen, longSelected]⟩

theorem addR (x y : Reg) : Statement (.addR x y) := by
  intro sel hw
  exact ⟨_, [], rfl, by
    cases sel <;> simp_all [encode, encodeR, instrLen, longSelected, Instr.wellFormed, regFormOk]⟩

theorem addS (x : Reg) (y : BitVec 3) : Statement (.addS x y) := by
  intro sel hw
  exact ⟨_, [], rfl, by
    cases sel <;> simp_all [encode, encodeS, instrLen, longSelected, Instr.wellFormed, shortFormOk]⟩

theorem addL (x : Reg) (i : Word) : Statement (.addL x i) := by
  intro sel hw
  exact ⟨_, [i], rfl, by cases sel <;> simp [encode, encodeL, instrLen, longSelected]⟩

theorem subR (x y : Reg) : Statement (.subR x y) := by
  intro sel hw
  exact ⟨_, [], rfl, by
    cases sel <;> simp_all [encode, encodeR, instrLen, longSelected, Instr.wellFormed, regFormOk]⟩

theorem subS (x : Reg) (y : BitVec 3) : Statement (.subS x y) := by
  intro sel hw
  exact ⟨_, [], rfl, by
    cases sel <;> simp_all [encode, encodeS, instrLen, longSelected, Instr.wellFormed, shortFormOk]⟩

theorem subL (x : Reg) (i : Word) : Statement (.subL x i) := by
  intro sel hw
  exact ⟨_, [i], rfl, by cases sel <;> simp [encode, encodeL, instrLen, longSelected]⟩

theorem rsbR (x y : Reg) : Statement (.rsbR x y) := by
  intro sel hw
  exact ⟨_, [], rfl, by
    cases sel <;> simp_all [encode, encodeR, instrLen, longSelected, Instr.wellFormed, regFormOk]⟩

theorem rsbS (x : Reg) (y : BitVec 3) : Statement (.rsbS x y) := by
  intro sel hw
  exact ⟨_, [], rfl, by
    cases sel <;> simp_all [encode, encodeS, instrLen, longSelected, Instr.wellFormed, shortFormOk]⟩

theorem rsbL (x : Reg) (i : Word) : Statement (.rsbL x i) := by
  intro sel hw
  exact ⟨_, [i], rfl, by cases sel <;> simp [encode, encodeL, instrLen, longSelected]⟩

theorem andR (x y : Reg) : Statement (.andR x y) := by
  intro sel hw
  exact ⟨_, [], rfl, by
    cases sel <;> simp_all [encode, encodeR, instrLen, longSelected, Instr.wellFormed, regFormOk]⟩

theorem andS (x : Reg) (y : BitVec 3) : Statement (.andS x y) := by
  intro sel hw
  exact ⟨_, [], rfl, by
    cases sel <;> simp_all [encode, encodeS, instrLen, longSelected, Instr.wellFormed, shortFormOk]⟩

theorem andL (x : Reg) (i : Word) : Statement (.andL x i) := by
  intro sel hw
  exact ⟨_, [i], rfl, by cases sel <;> simp [encode, encodeL, instrLen, longSelected]⟩

theorem orR (x y : Reg) : Statement (.orR x y) := by
  intro sel hw
  exact ⟨_, [], rfl, by
    cases sel <;> simp_all [encode, encodeR, instrLen, longSelected, Instr.wellFormed, regFormOk]⟩

theorem orS (x : Reg) (y : BitVec 3) : Statement (.orS x y) := by
  intro sel hw
  exact ⟨_, [], rfl, by
    cases sel <;> simp_all [encode, encodeS, instrLen, longSelected, Instr.wellFormed, shortFormOk]⟩

theorem orL (x : Reg) (i : Word) : Statement (.orL x i) := by
  intro sel hw
  exact ⟨_, [i], rfl, by cases sel <;> simp [encode, encodeL, instrLen, longSelected]⟩

theorem xorR (x y : Reg) : Statement (.xorR x y) := by
  intro sel hw
  exact ⟨_, [], rfl, by
    cases sel <;> simp_all [encode, encodeR, instrLen, longSelected, Instr.wellFormed, regFormOk]⟩

theorem xorS (x : Reg) (y : BitVec 3) : Statement (.xorS x y) := by
  intro sel hw
  exact ⟨_, [], rfl, by
    cases sel <;> simp_all [encode, encodeS, instrLen, longSelected, Instr.wellFormed, shortFormOk]⟩

theorem xorL (x : Reg) (i : Word) : Statement (.xorL x i) := by
  intro sel hw
  exact ⟨_, [i], rfl, by cases sel <;> simp [encode, encodeL, instrLen, longSelected]⟩

end Sys2Proof.Laws.LengthFromFirstWord
end

