-- ==== Sys2Proof/Tests/Slice0.lean ====
section
/-! SUPPORT. The model's own tests. Expected results come from spec/95_test_vectors.md (the vector or the section
is named with each test) and from the encoding formats of spec/30_encoding.md; the last part holds, for every
statement with hypotheses, states and operands that meet them. -/

namespace Sys2Proof.Tests

open Sys2Proof.Machine

/-! ### Well-formedness: an ill-formed term for each check -/

/-- R113: JRU does not name R0; that word is REU. -/
theorem test_ill_formed_jru : (Instr.jru .r0).wellFormed .m1y0 = false := rfl

/-- R114: JZ with H = 0 would be a BRK word. -/
theorem test_ill_formed_jz : (Instr.jz .r3 0).wellFormed .m1y0 = false := rfl

/-- R85: a register form with Y = 0 would be the word of the 12-bit immediate form. -/
theorem test_ill_formed_register_form : (Instr.eqR .r2 .r0).wellFormed .m1y0 = false := rfl

/-- R94: under the other value of IMM12_SELECT it is the short form with the field 0 that has no word. -/
theorem test_ill_formed_short_form : (Instr.eqS .r2 0).wellFormed .m0y0 = false := rfl

/-- R111: BRK is the name of user mode, REU and JRU are the names of machine mode. -/
theorem test_misnamed_break_words :
    (Instr.brk 3).namedIn false = false ∧ Instr.reu.namedIn true = false ∧
      (Instr.jru .r3).namedIn true = false := ⟨rfl, rfl, rfl⟩

/-! ### Decoding: one word for each constructor, bit by bit (spec/95_test_vectors.md) -/

/-- section 4. -/
theorem test_decode_reu : decode .m1y0 false [0b000000000000] = .ok (.reu, []) := rfl

/-- section 4. -/
theorem test_decode_brk : decode .m1y0 true [0b011100000000] = .ok (.brk 7, []) := rfl

/-- section 4. -/
theorem test_decode_jru : decode .m1y0 false [0b001100000000] = .ok (.jru .r3, []) := rfl

/-- section 4. -/
theorem test_decode_jz : decode .m1y0 true [0b001101111111] = .ok (.jz .r3 0x7F, []) := rfl

/-- V41.1. -/
theorem test_decode_lwR : decode .m1y0 true [0b101011110000] = .ok (.lwR .r2 .r7, []) := rfl

/-- V41.2. -/
theorem test_decode_lwA : decode .m1y0 true [0b101101100000, 0xFFF] = .ok (.lwA .r3 .r6 0xFFF, []) := rfl

/-- section 4. -/
theorem test_decode_swR : decode .m1y0 true [0b100011110001] = .ok (.swR .r0 .r7, []) := rfl

/-- section 4. -/
theorem test_decode_swA : decode .m1y0 true [0b100001110001, 0x040] = .ok (.swA .r0 .r7 0x040, []) := rfl

/-- section 4. -/
theorem test_decode_jrR : decode .m1y0 true [0b100010010010] = .ok (.jrR .r0 .r1, []) := rfl

/-- V42.4. -/
theorem test_decode_jrA : decode .m1y0 true [0b100000110010, 0x400] = .ok (.jrA .r0 .r3 0x400, []) := rfl

/-- V43.1. -/
theorem test_decode_mvR : decode .m1y0 true [0b111011110011] = .ok (.mvR .r6 .r7, []) := rfl

/-- V43.4. -/
theorem test_decode_mvS : decode .m1y0 true [0b101001000011] = .ok (.mvS .r2 4, []) := rfl

/-- V43.6. -/
theorem test_decode_mvL : decode .m1y0 true [0b111110000011, 0x7FF] = .ok (.mvL .r7 0x7FF, []) := rfl

/-- V44.10. -/
theorem test_decode_lslR : decode .m1y0 true [0b101010000100] = .ok (.lslR .r2 .r0, []) := rfl

/-- V44.13. -/
theorem test_decode_lslS : decode .m1y0 true [0b101001110100] = .ok (.lslS .r2 7, []) := rfl

/-- V44.15. -/
theorem test_decode_lsrR : decode .m1y0 true [0b101010110101] = .ok (.lsrR .r2 .r3, []) := rfl

/-- V44.20. -/
theorem test_decode_lsrS : decode .m1y0 true [0b101000000101] = .ok (.lsrS .r2 0, []) := rfl

/-- section 4. -/
theorem test_decode_asrR : decode .m1y0 true [0b101010000110] = .ok (.asrR .r2 .r0, []) := rfl

/-- section 4. -/
theorem test_decode_asrS : decode .m1y0 true [0b101000110110] = .ok (.asrS .r2 3, []) := rfl

/-- section 4. -/
theorem test_decode_eqR : decode .m1y0 true [0b101010010111] = .ok (.eqR .r2 .r1, []) := rfl

/-- V45.6. -/
theorem test_decode_eqS : decode .m1y0 true [0b101001000111] = .ok (.eqS .r2 4, []) := rfl

/-- V45.8. -/
theorem test_decode_eqL : decode .m1y0 true [0b101010000111, 0x5A5] = .ok (.eqL .r2 0x5A5, []) := rfl

/-- V45.10. -/
theorem test_decode_lrR : decode .m1y0 true [0b100111011000] = .ok (.lrR .r1 .r5, []) := rfl

/-- section 4. -/
theorem test_decode_lrS : decode .m1y0 true [0b101001111000] = .ok (.lrS .r2 7, []) := rfl

/-- V45.20. -/
theorem test_decode_lrL : decode .m1y0 true [0b101010001000, 0x100] = .ok (.lrL .r2 0x100, []) := rfl

/-- V45.22. -/
theorem test_decode_grR : decode .m1y0 true [0b101010111001] = .ok (.grR .r2 .r3, []) := rfl

/-- section 4. -/
theorem test_decode_grS : decode .m1y0 true [0b101000001001] = .ok (.grS .r2 0, []) := rfl

/-- V45.30. -/
theorem test_decode_grL : decode .m1y0 true [0b101010001001, 0x100] = .ok (.grL .r2 0x100, []) := rfl

/-- section 4. -/
theorem test_decode_addR : decode .m1y0 true [0b101010111010] = .ok (.addR .r2 .r3, []) := rfl

/-- V46.5. -/
theorem test_decode_addS : decode .m1y0 true [0b111100011010] = .ok (.addS .r7 1, []) := rfl

/-- V46.9. -/
theorem test_decode_addL : decode .m1y0 true [0b101010001010, 0x0FF] = .ok (.addL .r2 0x0FF, []) := rfl

/-- V46.13. -/
theorem test_decode_subR : decode .m1y0 true [0b101010101011] = .ok (.subR .r2 .r2, []) := rfl

/-- section 4. -/
theorem test_decode_subS : decode .m1y0 true [0b101001111011] = .ok (.subS .r2 7, []) := rfl

/-- V46.18. -/
theorem test_decode_subL : decode .m1y0 true [0b111110001011, 0x010] = .ok (.subL .r7 0x010, []) := rfl

/-- V46.19. -/
theorem test_decode_rsbR : decode .m1y0 true [0b101010111100] = .ok (.rsbR .r2 .r3, []) := rfl

/-- section 4. -/
theorem test_decode_rsbS : decode .m1y0 true [0b101000001100] = .ok (.rsbS .r2 0, []) := rfl

/-- V46.27. -/
theorem test_decode_rsbL : decode .m1y0 true [0b101010001100, 0x000] = .ok (.rsbL .r2 0x000, []) := rfl

/-- V47.1. -/
theorem test_decode_andR : decode .m1y0 true [0b101010111101] = .ok (.andR .r2 .r3, []) := rfl

/-- section 4. -/
theorem test_decode_andS : decode .m1y0 true [0b101001001101] = .ok (.andS .r2 4, []) := rfl

/-- V47.7. -/
theorem test_decode_andL : decode .m1y0 true [0b101010001101, 0x0F0] = .ok (.andL .r2 0x0F0, []) := rfl

/-- V47.8. -/
theorem test_decode_orR : decode .m1y0 true [0b101010111110] = .ok (.orR .r2 .r3, []) := rfl

/-- section 4. -/
theorem test_decode_orS : decode .m1y0 true [0b101001111110] = .ok (.orS .r2 7, []) := rfl

/-- V47.12. -/
theorem test_decode_orL : decode .m1y0 true [0b101010001110, 0x830] = .ok (.orL .r2 0x830, []) := rfl

/-- V47.18. -/
theorem test_decode_xorR : decode .m1y0 true [0b100010101111] = .ok (.xorR .r0 .r2, []) := rfl

/-- section 4. -/
theorem test_decode_xorS : decode .m1y0 true [0b111100001111] = .ok (.xorS .r7 0, []) := rfl

/-- section 4. -/
theorem test_decode_xorL : decode .m1y0 true [0b111110001111, 0x800] = .ok (.xorL .r7 0x800, []) := rfl

/-- Section 4, right-hand column: the words the other value of IMM12_SELECT reads otherwise. -/
theorem test_decode_other_select :
    decode .m0y0 true [0b100010000011] = .ok (.mvR .r0 .r0, []) ∧
      decode .m0y0 true [0b101000001010, 0x123] = .ok (.addL .r2 0x123, []) := ⟨rfl, rfl⟩

/-- R88: a stream that ends inside an instruction holds none. -/
theorem test_decode_short_streams :
    decode .m1y0 true [] = .error .noWord ∧ decode .m1y0 true [0b111110001111] = .error .noImmediate :=
  ⟨rfl, rfl⟩

/-- The opcode table's numbering: the second word is bits 23..12 (0xA87, 0x5A5: V45.8). -/
theorem test_decodeTableWord :
    decodeTableWord 12 0xAB6 = some (.asrR .r2 .r3) ∧ decodeTableWord 24 0x5A5A87 = some (.eqL .r2 0x5A5) ∧
      decodeTableWord 12 0xA87 = some (.eqL .r2 0x000) := ⟨rfl, rfl, rfl⟩

/-! ### One step of each instruction (spec/95_test_vectors.md) -/

/-- A small state: the mode, PC, and the words that stand from PC on in the mode's code space. -/
def small (user : Bool) (pc : Word) (words : List Word) : State :=
  words.zipIdx.foldl
    (fun s e => { s with
      mem := s.mem.write (homeCell ⟨user, true, pc + BitVec.ofNat 12 e.2⟩) e.1 })
    { State.reset with user := user, pc := pc }

/-- One data word in the current mode's data space. -/
def withData (s : State) (a v : Word) : State :=
  { s with mem := s.mem.write (homeCell (s.dataRequest a)) v }

/-- A value of UPC. -/
def withUpc (s : State) (v : Word) : State := { s with upc := v }

/-- Requests at the coming boundaries. -/
def withIrq (s : State) (l : List (BitVec 8)) : State := { s with irqInput := l }

/-- What a data cell of the current mode holds, if anything has been written to it. -/
def dataCell (s : State) (a : Word) : Option Word := s.mem.read (homeCell (s.dataRequest a))

/-- The outcome is a next state with the property. -/
def after (s : State) (p : State → Bool) : Bool :=
  match step s with
  | .next t => p t
  | .fault _ => false
  | .refused _ => false

/-- V40.5: `REU`. -/
theorem test_reu :
    after (withUpc (small false 0x03A [0x000]) 0x124)
      (fun t => t.pc == 0x124 && t.user == true) = true := by decide

/-- V40.1: `BRK 7`. -/
theorem test_brk :
    after (small true 0x123 [0x700])
      (fun t => t.pc == 0x038 && t.user == false && t.upc == 0x124) = true := by decide

/-- V40.3: `BRK 3`. -/
theorem test_brk_wraps :
    after (small true 0xFFF [0x300])
      (fun t => t.pc == 0x018 && t.user == false && t.upc == 0x000) = true := by decide

/-- V40.7: `JRU SP`. -/
theorem test_jru :
    after (withUpc ((small false 0x041 [0x700]).setReg .r7 0xFFF) 0x000)
      (fun t => t.pc == 0xFFF && t.user == true) = true := by decide

/-- V40.16: `JZ ZR, -2`. -/
theorem test_jz_taken_wraps :
    after (small true 0x000 [0x0FE])
      (fun t => t.pc == 0xFFF) = true := by decide

/-- V40.10: `JZ BX, 5`. -/
theorem test_jz_not_taken :
    after ((small true 0x200 [0x305]).setReg .r3 0x800)
      (fun t => t.pc == 0x201) = true := by decide

/-- V41.5: `LW AX, AX`. -/
theorem test_lwR_same_register :
    after (withData ((small true 0x100 [0xAA0]).setReg .r2 0x810) 0x810 0x811)
      (fun t => t.pc == 0x101 && t.getReg .r2 == 0x811) = true := by decide

/-- V41.1: `LW AX, SP`. -/
theorem test_lwR :
    after (withData ((small true 0x100 [0xAF0]).setReg .r7 0x7F0) 0x7F0 0x0AB)
      (fun t => t.pc == 0x101 && t.getReg .r2 == 0x0AB) = true := by decide

/-- V41.6: `LW AX, BP, 0x002`. -/
theorem test_lwA_wraps :
    after (withData ((small true 0x100 [0xA60, 0x002]).setReg .r6 0xFFF) 0x001 0x777)
      (fun t => t.pc == 0x102 && t.getReg .r2 == 0x777) = true := by decide

/-- V41.8: `LW AX, ZR, 0x900`. -/
theorem test_lwA_across_the_top :
    after (withData (small true 0xFFF [0xA00, 0x900]) 0x900 0x00C)
      (fun t => t.pc == 0x001 && t.getReg .r2 == 0x00C) = true := by decide

/-- V41.9: `SW AX, SP`. -/
theorem test_swR :
    after (((small true 0x100 [0xAF1]).setReg .r2 0x0AB).setReg .r7 0x7F0)
      (fun t => t.pc == 0x101 && dataCell t 0x7F0 == some 0x0AB) = true := by decide

/-- V41.11: `SW ZR, BX`. -/
theorem test_swR_of_zero :
    after ((small true 0x100 [0x8B1]).setReg .r3 0x820)
      (fun t => t.pc == 0x101 && dataCell t 0x820 == some 0x000) = true := by decide

/-- V41.13: `SW AX, BP, 0xFFE`. -/
theorem test_swA_wraps :
    after (((small true 0x100 [0xA61, 0xFFE]).setReg .r2 0x00F).setReg .r6 0x001)
      (fun t => t.pc == 0x102 && dataCell t 0xFFF == some 0x00F) = true := by decide

/-- V42.5: `JR AX, AX`. -/
theorem test_jrR_same_register :
    after ((small true 0x100 [0xAA2]).setReg .r2 0x300)
      (fun t => t.pc == 0x300 && t.getReg .r2 == 0x101) = true := by decide

/-- V42.8: `JR AS, AX`. -/
theorem test_jrR_link_wraps :
    after (((small true 0xFFF [0x9A2]).setReg .r1 0x555).setReg .r2 0x040)
      (fun t => t.pc == 0x040 && t.getReg .r1 == 0x000) = true := by decide

/-- V42.6: `JR AS, AS, 0x010`. -/
theorem test_jrA :
    after ((small true 0x100 [0x912, 0x010]).setReg .r1 0x200)
      (fun t => t.pc == 0x210 && t.getReg .r1 == 0x102) = true := by decide

/-- V42.9: `JR AS, ZR, 0x040`. -/
theorem test_jrA_link_wraps :
    after ((small true 0xFFE [0x902, 0x040]).setReg .r1 0x555)
      (fun t => t.pc == 0x040 && t.getReg .r1 == 0x000) = true := by decide

/-- V43.1: `MV BP, SP`. -/
theorem test_mvR :
    after ((small true 0x100 [0xEF3]).setReg .r7 0x7F0)
      (fun t => t.pc == 0x101 && t.getReg .r6 == 0x7F0) = true := by decide

/-- V43.4: `MV AX, -4`. -/
theorem test_mvS :
    after (small true 0x100 [0xA43])
      (fun t => t.pc == 0x101 && t.getReg .r2 == 0xFFC) = true := by decide

/-- V43.6: `MV SP, 0x7FF`. -/
theorem test_mvL :
    after (small true 0x100 [0xF83, 0x7FF])
      (fun t => t.pc == 0x102 && t.getReg .r7 == 0x7FF) = true := by decide

/-- V43.7: `MV ZR, 0x123`. -/
theorem test_mvL_to_r0 :
    after (small true 0x100 [0x883, 0x123])
      (fun t => t.pc == 0x102 && t.getReg .r0 == 0x000) = true := by decide

/-- V44.5: `LSL AX, BX`. -/
theorem test_lslR_all_bits_out :
    after (((small true 0x100 [0xAB4]).setReg .r2 0xFFF).setReg .r3 0x00C)
      (fun t => t.pc == 0x101 && t.getReg .r2 == 0x000) = true := by decide

/-- V44.7: `LSL AX, BX`. -/
theorem test_lslR_low_four_bits :
    after (((small true 0x100 [0xAB4]).setReg .r2 0x001).setReg .r3 0x013)
      (fun t => t.pc == 0x101 && t.getReg .r2 == 0x008) = true := by decide

/-- V44.12: `LSL AX, 8`. -/
theorem test_lslS_by_eight :
    after ((small true 0x100 [0xA04]).setReg .r2 0x0AB)
      (fun t => t.pc == 0x101 && t.getReg .r2 == 0xB00) = true := by decide

/-- V44.15: `LSR AX, BX`. -/
theorem test_lsrR :
    after (((small true 0x100 [0xAB5]).setReg .r2 0xAB0).setReg .r3 0x004)
      (fun t => t.pc == 0x101 && t.getReg .r2 == 0x0AB) = true := by decide

/-- V44.20: `LSR AX, 8`. -/
theorem test_lsrS_by_eight :
    after ((small true 0x100 [0xA05]).setReg .r2 0xAB0)
      (fun t => t.pc == 0x101 && t.getReg .r2 == 0x00A) = true := by decide

/-- V44.22: `ASR AX, BX`. -/
theorem test_asrR :
    after (((small true 0x100 [0xAB6]).setReg .r2 0x800).setReg .r3 0x003)
      (fun t => t.pc == 0x101 && t.getReg .r2 == 0xF00) = true := by decide

/-- V44.25: `ASR AX, BX`. -/
theorem test_asrR_pure_sign :
    after (((small true 0x100 [0xAB6]).setReg .r2 0x800).setReg .r3 0x00F)
      (fun t => t.pc == 0x101 && t.getReg .r2 == 0xFFF) = true := by decide

/-- V44.30: `ASR AX, 8`. -/
theorem test_asrS_by_eight :
    after ((small true 0x100 [0xA06]).setReg .r2 0xA50)
      (fun t => t.pc == 0x101 && t.getReg .r2 == 0xFFA) = true := by decide

/-- V44.33: `ASR AX, 1`. -/
theorem test_asrS_rounds_down :
    after ((small true 0x100 [0xA16]).setReg .r2 0xFFD)
      (fun t => t.pc == 0x101 && t.getReg .r2 == 0xFFE) = true := by decide

/-- V45.2: `EQ AX, BX`. -/
theorem test_eqR :
    after (((small true 0x100 [0xAB7]).setReg .r2 0x123).setReg .r3 0x124)
      (fun t => t.pc == 0x101 && t.getReg .r2 == 0x000) = true := by decide

/-- V45.6: `EQ AX, -4`. -/
theorem test_eqS :
    after ((small true 0x100 [0xA47]).setReg .r2 0xFFC)
      (fun t => t.pc == 0x101 && t.getReg .r2 == 0x001) = true := by decide

/-- V45.8: `EQ AX, 0x5A5`. -/
theorem test_eqL :
    after ((small true 0x100 [0xA87, 0x5A5]).setReg .r2 0x5A5)
      (fun t => t.pc == 0x102 && t.getReg .r2 == 0x001) = true := by decide

/-- V45.11: `LR AS, DX`. -/
theorem test_lrR_unsigned :
    after (((small true 0x100 [0x9D8]).setReg .r1 0x800).setReg .r5 0x7FF)
      (fun t => t.pc == 0x101 && t.getReg .r1 == 0x000) = true := by decide

/-- V45.17: `LR AX, -1`. -/
theorem test_lrS_unsigned :
    after ((small true 0x100 [0xA78]).setReg .r2 0x005)
      (fun t => t.pc == 0x101 && t.getReg .r2 == 0x001) = true := by decide

/-- V45.21: `LR AX, 0x100`. -/
theorem test_lrL_unsigned :
    after ((small true 0x100 [0xA88, 0x100]).setReg .r2 0x900)
      (fun t => t.pc == 0x102 && t.getReg .r2 == 0x000) = true := by decide

/-- V45.23: `GR AX, BX`. -/
theorem test_grR_unsigned :
    after (((small true 0x100 [0xAB9]).setReg .r2 0x800).setReg .r3 0x7FF)
      (fun t => t.pc == 0x101 && t.getReg .r2 == 0x001) = true := by decide

/-- V45.28: `GR AX, -1`. -/
theorem test_grS_unsigned :
    after ((small true 0x100 [0xA79]).setReg .r2 0xFFE)
      (fun t => t.pc == 0x101 && t.getReg .r2 == 0x000) = true := by decide

/-- V45.30: `GR AX, 0x100`. -/
theorem test_grL :
    after ((small true 0x100 [0xA89, 0x100]).setReg .r2 0x101)
      (fun t => t.pc == 0x102 && t.getReg .r2 == 0x001) = true := by decide

/-- V46.2: `ADD AX, BX`. -/
theorem test_addR_wraps :
    after (((small true 0x100 [0xABA]).setReg .r2 0xFFF).setReg .r3 0x002)
      (fun t => t.pc == 0x101 && t.getReg .r2 == 0x001) = true := by decide

/-- V46.6: `ADD AX, 7`. -/
theorem test_addS :
    after ((small true 0x100 [0xA7A]).setReg .r2 0x000)
      (fun t => t.pc == 0x101 && t.getReg .r2 == 0x007) = true := by decide

/-- V46.10: `ADD AX, 0xFFF`. -/
theorem test_addL_wraps :
    after ((small true 0x100 [0xA8A, 0xFFF]).setReg .r2 0x001)
      (fun t => t.pc == 0x102 && t.getReg .r2 == 0x000) = true := by decide

/-- V46.11: `SUB AX, BX`. -/
theorem test_subR_wraps :
    after (((small true 0x100 [0xABB]).setReg .r2 0x00A).setReg .r3 0x00B)
      (fun t => t.pc == 0x101 && t.getReg .r2 == 0xFFF) = true := by decide

/-- V46.16: `SUB AX, 7`. -/
theorem test_subS :
    after ((small true 0x100 [0xA7B]).setReg .r2 0x003)
      (fun t => t.pc == 0x101 && t.getReg .r2 == 0xFFC) = true := by decide

/-- V46.18: `SUB SP, 0x010`. -/
theorem test_subL :
    after ((small true 0x100 [0xF8B, 0x010]).setReg .r7 0x7F0)
      (fun t => t.pc == 0x102 && t.getReg .r7 == 0x7E0) = true := by decide

/-- V46.20: `RSB AX, BX`. -/
theorem test_rsbR :
    after (((small true 0x100 [0xABC]).setReg .r2 0x00A).setReg .r3 0x003)
      (fun t => t.pc == 0x101 && t.getReg .r2 == 0xFF9) = true := by decide

/-- V46.22: `RSB AX, 0`. -/
theorem test_rsbS :
    after ((small true 0x100 [0xA0C]).setReg .r2 0x005)
      (fun t => t.pc == 0x101 && t.getReg .r2 == 0xFFB) = true := by decide

/-- V46.26: `RSB AX, 0x100`. -/
theorem test_rsbL :
    after ((small true 0x100 [0xA8C, 0x100]).setReg .r2 0x001)
      (fun t => t.pc == 0x102 && t.getReg .r2 == 0x0FF) = true := by decide

/-- V47.1: `AND AX, BX`. -/
theorem test_andR :
    after (((small true 0x100 [0xABD]).setReg .r2 0xF0F).setReg .r3 0x3C3)
      (fun t => t.pc == 0x101 && t.getReg .r2 == 0x303) = true := by decide

/-- V47.4: `AND AX, -4`. -/
theorem test_andS :
    after ((small true 0x100 [0xA4D]).setReg .r2 0xABF)
      (fun t => t.pc == 0x101 && t.getReg .r2 == 0xABC) = true := by decide

/-- V47.7: `AND AX, 0x0F0`. -/
theorem test_andL :
    after ((small true 0x100 [0xA8D, 0x0F0]).setReg .r2 0xABC)
      (fun t => t.pc == 0x102 && t.getReg .r2 == 0x0B0) = true := by decide

/-- V47.8: `OR AX, BX`. -/
theorem test_orR :
    after (((small true 0x100 [0xABE]).setReg .r2 0xF00).setReg .r3 0x00F)
      (fun t => t.pc == 0x101 && t.getReg .r2 == 0xF0F) = true := by decide

/-- V47.10: `OR AX, -4`. -/
theorem test_orS :
    after ((small true 0x100 [0xA4E]).setReg .r2 0x101)
      (fun t => t.pc == 0x101 && t.getReg .r2 == 0xFFD) = true := by decide

/-- V47.12: `OR AX, 0x830`. -/
theorem test_orL :
    after ((small true 0x100 [0xA8E, 0x830]).setReg .r2 0x00C)
      (fun t => t.pc == 0x102 && t.getReg .r2 == 0x83C) = true := by decide

/-- V47.13: `XOR AX, BX`. -/
theorem test_xorR :
    after (((small true 0x100 [0xABF]).setReg .r2 0xAAA).setReg .r3 0x0FF)
      (fun t => t.pc == 0x101 && t.getReg .r2 == 0xA55) = true := by decide

/-- V47.15: `XOR AX, -1`. -/
theorem test_xorS :
    after ((small true 0x100 [0xA7F]).setReg .r2 0x0F0)
      (fun t => t.pc == 0x101 && t.getReg .r2 == 0xF0F) = true := by decide

/-- V47.17: `XOR AX, 0x800`. -/
theorem test_xorL :
    after ((small true 0x100 [0xA8F, 0x800]).setReg .r2 0x123)
      (fun t => t.pc == 0x102 && t.getReg .r2 == 0x923) = true := by decide

/-! ### Interrupts and reset (spec/95_test_vectors.md section 3) -/

/-- V60.2: requests 3 and 5 present. -/
theorem test_lowest_request_taken :
    after (withIrq (small true 0x105 []) [0b00101000])
      (fun t => t.pc == 0x018 && t.user == false && t.upc == 0x105) = true := by decide

/-- V60.3: masked in machine mode. -/
theorem test_masked_in_machine_mode :
    after (withIrq ((small false 0x045 [0xA1A]).setReg .r2 0x001) [0b00000100])
      (fun t => t.pc == 0x046 && t.getReg .r2 == 0x002) = true := by decide

/-- V60.5: a two-word instruction is displaced whole. -/
theorem test_two_word_instruction_displaced :
    after (withIrq (small true 0x100 [0xA83, 0x123]) [0b00000010])
      (fun t => t.pc == 0x008 && t.upc == 0x100 && t.getReg .r2 == 0x000) = true := by decide

/-- V60.7, V60.8: reset is taken in either mode. -/
theorem test_reset_request :
    after (withIrq (small true 0x234 []) [1]) (fun t => t.pc == 0x000 && t.user == false) = true ∧
      after (withIrq (small false 0x045 []) [1]) (fun t => t.pc == 0x000 && t.user == false) = true := by
  decide

/-! ### Placing an instruction, pseudo-instructions, timing, assembly text -/

/-- The first step after reset runs the placed instruction (V43.6's words). -/
theorem test_withFetchWord :
    after (State.reset.withFetchWord 24 0x7FFF83) (fun t => t.getReg .r7 == 0x7FF && t.pc == 0x002) = true := by
  decide

/-- V48.1, V48.2, V48.6: the expansions of PSH AX, POP BX and ENTER #2. -/
theorem test_expand :
    expand (.psh .r2) = [.swR .r2 .r7, .subS .r7 1] ∧ expand (.pop .r3) = [.addS .r7 1, .lwR .r3 .r7] ∧
      expand (.enter 2) = [.swR .r1 .r7, .subS .r7 1, .swR .r6 .r7, .subS .r7 1, .mvR .r6 .r7, .subS .r7 2] :=
  ⟨rfl, rfl, rfl⟩

/-- R93 (a) and R96 (b), (c): EQ AX, ZR is EQ AX, 0; SUB SP, 16 takes the long form; JZ to a label (V40.8, V40.13). -/
theorem test_assembling :
    registerOrZero (.eqR .r2) (.eqS .r2) .r0 = .eqS .r2 0 ∧
      shortOrLong fitsUimm3 (.subS .r7) (.subL .r7) 16 = .subL .r7 16 ∧
      shortOrLong fitsSimm3 (.mvS .r2) (.mvL .r2) 0xFFC = .mvS .r2 4 ∧
      jzTo .r3 0x200 0x206 = some (.jz .r3 5) ∧ jzTo .r0 0x100 0x180 = some (.jz .r0 0x7F) ∧
      jzTo .r0 0x100 0x181 = none ∧ jzTo .r0 0x100 0x101 = none ∧ jrTo .r1 = .jrR .r0 .r1 := by decide

/-- R302: the word 0x0FF at PC ends a run (V40.12). -/
theorem test_end_of_run : atEndOfRun (small true 0x150 [0x0FF]) = true := by decide

/-- E2: clocks per instruction. -/
theorem test_clocks :
    clocks (.lwR .r2 .r7) = 3 ∧ clocks (.jz .r3 5) = 2 ∧ clocks (.addL .r2 1) = 2 ∧ clocks (.addS .r2 1) = 1 :=
  ⟨rfl, rfl, rfl, rfl⟩

/-- V43.1: the assembly text of the word 0xEF3. -/
theorem test_asmText : asmText (.mvR .r6 .r7) = "MV BP, SP" := by decide

/-! ### Witnesses: for every statement with hypotheses, a case that meets all of them -/

/-- DecodeInvertsEncode: a two-word form and a BRK word, under each value of IMM12_SELECT and in each mode. -/
theorem witness_DecodeInvertsEncode :
    (Instr.addL .r2 0xFFF).wellFormed .m1y0 = true ∧ (Instr.addL .r2 0xFFF).namedIn true = true ∧
      (Instr.eqR .r2 .r0).wellFormed .m0y0 = true ∧ (Instr.eqR .r2 .r0).namedIn false = true ∧
      (Instr.brk 7).wellFormed .m1y0 = true ∧ (Instr.brk 7).namedIn true = true ∧
      (Instr.jru .r7).wellFormed .m1y0 = true ∧ (Instr.jru .r7).namedIn false = true := by decide

/-- EncodeInvertsDecode: a stream of two instructions. -/
theorem witness_EncodeInvertsDecode :
    decode .m1y0 true [0xFFF, 0xA87] = .ok (.xorR .r7 .r7, [0xA87]) := rfl

/-- Imm12SelectMattersOnlyForYZero: 0xA0A is read in two ways, and 0xA1A and
0xA04 in one. -/
theorem witness_Imm12SelectMattersOnlyForYZero :
    decodeWords .m1y0 true 0xA0A 0x123 = .addS .r2 0 ∧ decodeWords .m0y0 true 0xA0A 0x123 = .addL .r2 0x123 ∧
      decodeWords .m1y0 true 0xA1A 0x123 = decodeWords .m0y0 true 0xA1A 0x123 ∧
      decodeWords .m1y0 true 0xA04 0x123 = decodeWords .m0y0 true 0xA04 0x123 := ⟨rfl, rfl, rfl, rfl⟩

/-- OnlyBreakWordsDecodeByMode: 0x700 is read by the mode and 0x701 is not. -/
theorem witness_OnlyBreakWordsDecodeByMode :
    decodeWords .m1y0 true 0x700 0 ≠ decodeWords .m1y0 false 0x700 0 ∧
      decodeWords .m1y0 true 0x701 0 = decodeWords .m1y0 false 0x701 0 := by decide

/-- A machine whose data requests and code requests reach the same cells, in machine mode (R56, R63), about to
execute `SW AX, ZR, i` at 0x100, with 0xA03 (`MV AX, 0`) in the two words after it. -/
def storing (i : Word) : State :=
  { State.reset with
    pc := 0x100
    regs := ⟨0, 0x8A3, 0, 0, 0, 0, 0⟩
    bus := [⟨false, true, 0, 4096, .cell 0⟩, ⟨false, false, 0, 4096, .cell 0⟩]
    mem := [(0x100, 0xA01), (0x101, i), (0x102, 0xA03), (0x103, 0xA03), (0x200, 0xA03)] }

/-- InvariantKeptByEveryStep: a step from an empty prefetch window to one that holds a word, and a step from a
state whose window holds a word. -/
theorem witness_InvariantKeptByEveryStep :
    (Inv (storing 0x102) ∧ after (storing 0x102) (fun t => t.stale == [(0x102, 0xA03)]) = true) ∧
      (Inv { storing 0x102 with stale := [(0x101, 0x123)], irqInput := [1] } ∧
        Completes { storing 0x102 with stale := [(0x101, 0x123)], irqInput := [1] }) := by
  refine ⟨⟨⟨by decide, fun e he => by cases he⟩, by decide⟩, ⟨by decide, ?_⟩, ⟨_, rfl⟩⟩
  intro e he
  cases List.mem_singleton.1 he
  exact ⟨.inr rfl, 0x101, rfl⟩

/-- ResetRequestTakenInEitherMode: both modes, with other requests present. -/
theorem witness_ResetRequestTakenInEitherMode :
    resetRequested (withIrq (small true 0x234 []) [0b11111111]) = true ∧
      resetRequested (withIrq (small false 0x045 []) [1]) = true := by decide

/-- BreakTrapsFromUserMode: a user-mode state at the last address. -/
theorem witness_BreakTrapsFromUserMode : (small true 0xFFF [0x300]).user = true := rfl

/-- BreakWordMeaningFollowsMode: each name, each mode, X = 0 and X = 7. -/
theorem witness_BreakWordMeaningFollowsMode :
    Instr.brk 7 = .brk (Reg.bits .r7) ∧ Instr.brk 0 = .brk (Reg.bits .r0) ∧ Reg.r7 ≠ .r0 ∧
      (small true 0x123 [0x700]).user = true ∧ (small false 0x03A [0x000]).user = false := by decide

/-- LoadSeesPrecedingStore: two addresses that reach one cell. -/
theorem witness_LoadSeesPrecedingStore :
    (fun s : State => busTarget s.bus ⟨s.user, false, s.getReg .r2⟩ = .cell 0x050 ∧
        busTarget s.bus ⟨s.user, false, s.getReg .r3⟩ = .cell 0x050)
      { State.reset with
        regs := ⟨0, 0x050, 0x850, 0, 0, 0, 0⟩
        bus := [⟨false, false, 0, 2048, .cell 0⟩, ⟨false, false, 2048, 2048, .cell 0⟩] } := by decide

/-- FetchAfterStoreIntoCode: a store to each of the two code addresses that follow it, and one further away. -/
theorem witness_FetchAfterStoreIntoCode :
    (fun s : State => s.stale = [] ∧ (∃ t, exec (.swA .r2 .r0 0x102) s = .next t ∧ t.pc = 0x102 ∧
        ∃ u, exec (.jrR .r0 .r2) t = .next u) ∧
      busTarget s.bus ⟨s.user, false, s.getReg .r0 + 0x102⟩ = .cell 0x102 ∧
      busTarget s.bus ⟨s.user, true, 0x102⟩ = .cell 0x102 ∧
      busTarget s.bus ⟨s.user, false, s.getReg .r0 + 0x103⟩ = .cell 0x103 ∧
      busTarget s.bus ⟨s.user, true, 0x103⟩ = .cell 0x103 ∧
      busTarget s.bus ⟨s.user, false, s.getReg .r0 + 0x200⟩ = .cell 0x200 ∧
      busTarget s.bus ⟨s.user, true, 0x200⟩ = .cell 0x200) (storing 0x102) :=
  ⟨rfl, ⟨_, rfl, rfl, _, rfl⟩, by decide, by decide, by decide, by decide, by decide, by decide⟩

/-- StepRunsDecodedInstruction: a two-word instruction whose immediate word stands at address 0x000. -/
theorem witness_StepRunsDecodedInstruction :
    (fun s : State => (Instr.mvL .r7 0x7FF).wellFormed Config.imm12Select = true ∧
        (Instr.mvL .r7 0x7FF).namedIn s.user = true ∧ resetRequested s = false ∧ s.irqInput.headD 0 = 0 ∧
        s.stale = [] ∧ s.passBoundary.fetchedWords = encode Config.imm12Select (.mvL .r7 0x7FF) ∧
        busTarget s.bus ⟨s.user, true, s.pc⟩ = .cell 16383 ∧ s.cellWord 16383 = 0xF83 ∧
        busTarget s.bus ⟨s.user, true, s.pc + 1⟩ = .cell 12288 ∧ s.cellWord 12288 = 0x7FF)
      (small true 0xFFF [0xF83, 0x7FF]) :=
  ⟨rfl, rfl, rfl, rfl, rfl, rfl, by decide, rfl, by decide, rfl⟩

/-- StepRunsDecodedInstruction, in machine mode with requests that are masked there. -/
theorem witness_StepRunsDecodedInstruction_machine :
    (fun s : State => Instr.reu.wellFormed Config.imm12Select = true ∧ Instr.reu.namedIn s.user = true ∧
        resetRequested s = false ∧ s.user = false ∧ s.stale = [] ∧
        s.passBoundary.fetchedWords = encode Config.imm12Select .reu ∧
        busTarget s.bus ⟨s.user, true, s.pc⟩ = .cell 4154 ∧ s.cellWord 4154 = 0x000)
      (withIrq (small false 0x03A [0x000]) [0b00000100]) :=
  ⟨rfl, rfl, rfl, rfl, rfl, rfl, by decide, rfl⟩

/-- SequentialInstructionsAdvancePc: one word and two words. -/
theorem witness_SequentialInstructionsAdvancePc :
    (isTransfer (.addR .r2 .r3) = false ∧ ∃ t, exec (.addR .r2 .r3) (small true 0xFFF []) = .next t) ∧
      (isTransfer (.swA .r2 .r3 1) = false ∧ ∃ t, exec (.swA .r2 .r3 1) (small true 0xFFF []) = .next t) :=
  ⟨⟨rfl, _, rfl⟩, ⟨rfl, _, rfl⟩⟩

/-- ModeDoesNotChangeOtherInstructions: a jump and an ALU instruction. -/
theorem witness_ModeDoesNotChangeOtherInstructions :
    (isBreakName (.jrR .r1 .r2) = false ∧ isDataAccess (.jrR .r1 .r2) = false ∧
        ∃ t, exec (.jrR .r1 .r2) (small true 0x210 []) = .next t) ∧
      (isBreakName (.lrS .r2 7) = false ∧ isDataAccess (.lrS .r2 7) = false ∧
        ∃ t, exec (.lrS .r2 7) (small false 0x100 []) = .next t) :=
  ⟨⟨rfl, rfl, _, rfl⟩, ⟨rfl, rfl, _, rfl⟩⟩

/-- ExternalInterruptEntry: the least and the most important external interrupt, and a handler's state. -/
theorem witness_ExternalInterruptEntry :
    ((small true 0x105 []).user = true ∧ (7 : IrqNum) ≠ 0 ∧
        Delivered (withIrq (small true 0x105 []) [0b10000000]) 7) ∧
      ((1 : IrqNum) ≠ 0 ∧ Delivered (withIrq (small true 0x105 []) [0b11111110]) 1) ∧
      ((withUpc (small false 0x008 []) 0x105).user = false ∧ (withUpc (small false 0x008 []) 0x105).upc = 0x105) := by
  unfold Delivered
  decide

/-- MachineModeMasksInterrupts: every external interrupt requested, and a reset request beside one. -/
theorem witness_MachineModeMasksInterrupts :
    (fun s : State => s.user = false ∧ s.irqInput = 0b11111110 :: [] ∧ BitVec.getLsbD 0b11111110#8 0 = false ∧
        ∃ t, step s = .next t) (withIrq (small false 0x045 [0xA1A]) [0b11111110]) ∧
      (fun s : State => s.user = false ∧ s.irqInput = 0b00000101 :: [])
        (withIrq (small false 0x045 [0xA1A]) [0b00000101]) :=
  ⟨⟨rfl, rfl, rfl, _, rfl⟩, rfl, rfl⟩

/-- RequestTakenRightAfterReturn: V60.4, and JRU AX with two requests waiting. -/
theorem witness_RequestTakenRightAfterReturn :
    (fun s : State => s.user = false ∧ s.irqInput = 0 :: 0b00100000 :: [] ∧
        s.passBoundary.fetchedInstr = .reu ∧ s.upc = 0x105)
      (withIrq (withUpc (small false 0x00A [0x000]) 0x105) [0, 0b00100000]) ∧
      (fun s : State => s.user = false ∧ s.irqInput = 0b00000010 :: 0b10000010 :: [] ∧
        s.passBoundary.fetchedInstr = .jru .r2 ∧ s.getReg .r2 = 0x400)
      (withIrq ((small false 0x005 [0x200]).setReg .r2 0x400) [0b00000010, 0b10000010]) ∧
      (BitVec.getLsbD 0b00100000#8 (5 : IrqNum).toNat = true ∧
        ∀ m : IrqNum, m < 5 → BitVec.getLsbD 0b00100000#8 m.toNat = false) ∧
      (BitVec.getLsbD 0b10000010#8 (1 : IrqNum).toNat = true ∧
        ∀ m : IrqNum, m < 1 → BitVec.getLsbD 0b10000010#8 m.toNat = false) :=
  ⟨⟨rfl, rfl, rfl, rfl⟩, ⟨rfl, rfl, rfl, rfl⟩, by decide, by decide⟩

/-- UpcWrittenOnlyOnEntryFromUserMode: by BRK and by an external interrupt. -/
theorem witness_UpcWrittenOnlyOnEntryFromUserMode :
    after (small true 0x123 [0x700]) (fun t => t.upc != (small true 0x123 [0x700]).upc) = true ∧
      after (withIrq (small true 0x105 []) [2]) (fun t => t.upc != (small true 0x105 []).upc) = true := by
  decide

/-- ModeChangedOnlyByBreakInterruptReset: each of its causes. -/
theorem witness_ModeChangedOnlyByBreakInterruptReset :
    after (small true 0x123 [0x700]) (fun t => t.user != true) = true ∧
      after (withIrq (small true 0x105 []) [0b10000000]) (fun t => t.user != true) = true ∧
      after (withIrq (small true 0x234 []) [1]) (fun t => t.user != true) = true ∧
      after (small false 0x03A [0x000]) (fun t => t.user != false) = true ∧
      after (small false 0x041 [0x700]) (fun t => t.user != false) = true := by decide

/-- StepTransfersInOrder: no transfer, one code read, two code reads and a data write. -/
theorem witness_StepTransfersInOrder :
    after (withIrq (small true 0x105 []) [2]) (fun t => t.busLog == []) = true ∧
      after (small true 0x123 [0x700]) (fun t => t.busLog == [⟨⟨true, true, 0x123⟩, false, 0x700⟩]) = true ∧
      after (small true 0xFFF [0xF01, 0x040]) (fun t => t.busLog ==
        [⟨⟨true, false, 0x040⟩, true, 0x000⟩, ⟨⟨true, true, 0x000⟩, false, 0x040⟩,
          ⟨⟨true, true, 0xFFF⟩, false, 0xF01⟩]) = true := by decide

/-- UserModeWritesOnlyItsDataCells: a user-mode store, and a cell of the machine-mode data space. -/
theorem witness_UserModeWritesOnlyItsDataCells :
    (fun s : State => s.user = true ∧ resetRequested s = false ∧
        (∀ a, busTarget s.bus ⟨true, false, a⟩ ≠ .cell 0x830) ∧ ∃ t, step s = .next t)
      ((small true 0x100 [0xAA1]).setReg .r2 0x830) := by
  refine ⟨rfl, rfl, fun a h => ?_, _, rfl⟩
  have h' : Target.cell (8192 + 0 + a.toNat) = Target.cell 0x830 := h
  injection h' with h'
  omega

/-- UserModeCannotLearnHiddenCells: a user-mode load, and a memory with another word in a cell of the
machine-mode data space. -/
theorem witness_UserModeCannotLearnHiddenCells :
    (fun (s : State) (m : Memory) => s.user = true ∧ resetRequested s = false ∧ m ≠ s.mem ∧
        (∀ n, ¬ hiddenFromUser s.bus n → ({ s with mem := m } : State).cellWord n = s.cellWord n) ∧
        ∃ t, step s = .next t)
      (withData (small true 0x100 [0xA80]) 0x000 0x5A5)
      (Memory.write (withData (small true 0x100 [0xA80]) 0x000 0x5A5).mem 7 0x123) := by
  refine ⟨rfl, rfl, by decide, fun n hn => ?_, _, rfl⟩
  have h7 : n ≠ 7 := by
    rintro rfl
    refine hn fun code a h => ?_
    cases code
    · have h' : Target.cell (8192 + 0 + a.toNat) = Target.cell 7 := h
      injection h' with h'
      omega
    · have h' : Target.cell (8192 + 4096 + a.toNat) = Target.cell 7 := h
      injection h' with h'
      omega
  have hm : (withData (small true 0x100 [0xA80]) 0x000 0x5A5).mem = [(8192, 0x5A5), (12544, 0xA80)] := by decide
  simp only [State.cellWord, hm]
  simp [Memory.write, Memory.read, Ne.symm h7]

/-- PushStoresThenLowersSp: a memory cell at SP = 0x000, from where SP wraps. -/
theorem witness_PushStoresThenLowersSp :
    busTarget State.reset.bus ⟨false, false, State.reset.getReg .r7⟩ = .cell 0 := by decide

/-- PopRaisesSpThenLoads: SP wraps from 0xFFF to 0x000, where a memory cell answers. -/
theorem witness_PopRaisesSpThenLoads :
    (fun s : State => (0x000 : Word).toNat = ((s.getReg .r7).toNat + 1) % 4096 ∧
        busTarget s.bus ⟨s.user, false, 0x000⟩ = .cell 8192) ((small true 0x100 []).setReg .r7 0xFFF) := by decide

/-- DuplicateTopOfStack and SwapTopOfStack: memory cells at SP, SP + 1 and SP + 2, where SP + 1 wraps. -/
theorem witness_DuplicateTopOfStack_SwapTopOfStack :
    (fun s : State => busTarget s.bus ⟨s.user, false, s.getReg .r7⟩ = .cell 12287 ∧
        busTarget s.bus ⟨s.user, false, s.getReg .r7 + 1⟩ = .cell 8192 ∧
        busTarget s.bus ⟨s.user, false, s.getReg .r7 + 2⟩ = .cell 8193 ∧ 8192 ≠ 8193)
      ((small true 0x100 []).setReg .r7 0xFFF) := by decide

/-- EnterExitRestoresFrame: a frame of two words (V48.6), and EXIT right after ENTER. -/
theorem witness_EnterExitRestoresFrame :
    (fun s : State => 10480 ≠ 10479 ∧ busTarget s.bus ⟨s.user, false, s.getReg .r7⟩ = .cell 10480 ∧
        busTarget s.bus ⟨s.user, false, s.getReg .r7 - 1⟩ = .cell 10479 ∧
        ∃ t b : State, execList (expand (.enter 2)) s = .next t ∧ b.getReg .r6 = t.getReg .r6 ∧ b.user = s.user ∧
          b.bus = s.bus ∧ b.cellWord 10480 = t.cellWord 10480 ∧ b.cellWord 10479 = t.cellWord 10479)
      ((((small true 0x100 []).setReg .r1 0x106).setReg .r6 0x8F8).setReg .r7 0x8F0) :=
  ⟨by decide, by decide, by decide, _, _, rfl, rfl, rfl, rfl, rfl, rfl⟩

/-- NoOperationForms: MV ZR, 0 (the word 0x803 that the spec recommends), OR RX, 0, and a JZ not taken. -/
theorem witness_NoOperationForms :
    aluDestination (.mvS .r0 0) = some .r0 ∧
      Instr.orS .r2 0 ∈ [Instr.addS .r2 0, .subS .r2 0, .orS .r2 0, .mvR .r2 .r2] ∧
      ((small true 0x200 []).setReg .r3 0x800).getReg .r3 ≠ 0x000 := by decide

end Sys2Proof.Tests
end

section
/-! The mode-control family (spec/40_mode_control.md): the words of format B, and BRK in user mode (R110). -/

namespace Sys2Proof.Machine

/-- An instruction of format B is the one word `0x100 * X + H` (R81, R86). -/
theorem encodedAs_of_encodeB (i : Instr) (x : BitVec 3) (h : BitVec 8)
    (hi : ∀ sel, encode sel i = [encodeB x h]) : EncodedAs i (0x100 * x.toNat + h.toNat) [] :=
  fun sel => ⟨encodeB x h, hi sel, encodeB_toNat x h⟩

theorem encodedAs_brk (n : IrqNum) : EncodedAs (.brk n) (0x100 * n.toNat) [] :=
  encodedAs_of_encodeB (.brk n) n 0 fun _ => rfl

theorem exec_brk (n : IrqNum) (s : State) : exec (.brk n) s = .next (s.breakWord n) := rfl

/-- In user mode BRK n takes the trap n, to return to the instruction after it (R110, R254). -/
theorem exec_brk_user (n : IrqNum) (s : State) (hu : s.user = true) :
    exec (.brk n) s = .next (s.takeBreak n (s.next 1)) := by
  rw [exec_brk, s.breakWord_user n hu]

/-- Settles O11: in user mode BRK n is the trap entry with the next address as return address, and the trap entry
does not touch the interrupt input. -/
theorem breakTrapsFromUserMode : Obligations.BreakTrapsFromUserMode := by
  intro n s hu
  refine ⟨⟨s.takeBreak n (s.next 1), s.next 1, exec_brk_user n s hu, s.next_one_toNat, ?_, ?_⟩, encodedAs_brk n⟩
  · exact s.takeBreak_effect n (s.next 1)
  · exact s.takeBreak_irqInput n (s.next 1)

end Sys2Proof.Machine
end

section
/-! The memory-access family (spec/41_memory_access.md): the words of format R, and the register forms of LW (R130)
and SW (R132). -/

namespace Sys2Proof.Machine

/-- An instruction of format R is the one word `0x880 + OP + 0x100 * X + 0x010 * Y` (R82, R86). -/
theorem encodedAs_of_encodeR (i : Instr) (op : BitVec 4) (x y : Reg)
    (hi : ∀ sel, encode sel i = encodeR op x y) :
    EncodedAs i (0x880 + op.toNat + 0x100 * x.bits.toNat + 0x010 * y.bits.toNat) [] := by
  intro sel
  refine ⟨encodeOp x.bits true y.bits op, hi sel, ?_⟩
  rw [encodeOp_toNat, Bool.toNat_true]
  omega

theorem encodedAs_lwR (x y : Reg) :
    EncodedAs (.lwR x y) (0x880 + 0x100 * x.bits.toNat + 0x010 * y.bits.toNat) [] :=
  encodedAs_of_encodeR (.lwR x y) 0 x y fun _ => rfl

theorem encodedAs_swR (x y : Reg) :
    EncodedAs (.swR x y) (0x881 + 0x100 * x.bits.toNat + 0x010 * y.bits.toNat) [] :=
  encodedAs_of_encodeR (.swR x y) 1 x y fun _ => rfl

theorem exec_lwR (x y : Reg) (s : State) : exec (.lwR x y) s = .next (s.load x (s.getReg y) 1) := rfl

theorem exec_swR (x y : Reg) (s : State) : exec (.swR x y) s = .next (s.store x (s.getReg y) 1) := rfl

/-- Settles O14: LW RX, RY is the shared load at the address in register Y, read before register X is written. -/
theorem loadRegisterIndirect : Obligations.LoadRegisterIndirect := by
  intro x y s
  refine ⟨⟨s.load x (s.getReg y) 1, exec_lwR x y s, ?_⟩, encodedAs_lwR x y, rfl⟩
  exact s.load_effect x (s.getReg y) 1

/-- Settles O16: SW RX, RY is the shared store at the address in register Y; the prefetch window it opens (R64) is
no register and no memory cell. -/
theorem storeRegisterIndirect : Obligations.StoreRegisterIndirect := by
  intro x y s
  refine ⟨⟨s.store x (s.getReg y) 1, exec_swR x y s, ?_⟩, encodedAs_swR x y, rfl⟩
  exact s.store_effect x (s.getReg y) 1

end Sys2Proof.Machine
end

section
/-! The flow-control family (spec/42_flow_control.md): JR in its register form (R140). -/

namespace Sys2Proof.Machine

theorem encodedAs_jrR (x y : Reg) :
    EncodedAs (.jrR x y) (0x882 + 0x100 * x.bits.toNat + 0x010 * y.bits.toNat) [] :=
  encodedAs_of_encodeR (.jrR x y) 2 x y fun _ => rfl

theorem exec_jrR (x y : Reg) (s : State) : exec (.jrR x y) s = .next (s.jumpAndLink x (s.getReg y) 1) := rfl

/-- Settles O20: JR RX, RY is the shared jump and link over one word. Its target is register Y of the old state, so
that JR RX, RX too jumps to the value from before the link is written (R140). -/
theorem jumpAndLinkRegister : Obligations.JumpAndLinkRegister := by
  intro x y s
  refine ⟨⟨s.jumpAndLink x (s.getReg y) 1, exec_jrR x y s, ?_⟩, encodedAs_jrR x y, rfl⟩
  exact s.jumpAndLink_effect x (s.getReg y) 1

end Sys2Proof.Machine
end

section
/-! The shift family (spec/44_shift.md): the words of format S, the shifts and their amounts as arithmetic (R160), and
LSL and LSR in both forms (R161 to R164). -/

namespace Sys2Proof.Machine

/-- An instruction of format S is the one word `0x800 + OP + 0x100 * X + 0x010 * Y` (R83, R86). -/
theorem encodedAs_of_encodeS (i : Instr) (op : BitVec 4) (x : Reg) (y : BitVec 3)
    (hi : ∀ sel, encode sel i = encodeS op x y) :
    EncodedAs i (0x800 + op.toNat + 0x100 * x.bits.toNat + 0x010 * y.toNat) [] := by
  intro sel
  refine ⟨encodeOp x.bits false y op, hi sel, ?_⟩
  rw [encodeOp_toNat, Bool.toNat_false]
  omega

theorem encodedAs_lslR (x y : Reg) :
    EncodedAs (.lslR x y) (0x884 + 0x100 * x.bits.toNat + 0x010 * y.bits.toNat) [] :=
  encodedAs_of_encodeR (.lslR x y) 4 x y fun _ => rfl

theorem encodedAs_lslS (x : Reg) (y : BitVec 3) :
    EncodedAs (.lslS x y) (0x804 + 0x100 * x.bits.toNat + 0x010 * y.toNat) [] :=
  encodedAs_of_encodeS (.lslS x y) 4 x y fun _ => rfl

theorem encodedAs_lsrR (x y : Reg) :
    EncodedAs (.lsrR x y) (0x885 + 0x100 * x.bits.toNat + 0x010 * y.bits.toNat) [] :=
  encodedAs_of_encodeR (.lsrR x y) 5 x y fun _ => rfl

theorem encodedAs_lsrS (x : Reg) (y : BitVec 3) :
    EncodedAs (.lsrS x y) (0x805 + 0x100 * x.bits.toNat + 0x010 * y.toNat) [] :=
  encodedAs_of_encodeS (.lsrS x y) 5 x y fun _ => rfl

/-- The low four bits of a word are its value modulo 16. -/
theorem shiftAmount_eq_mod (v : Word) : shiftAmount v = v.toNat % 16 := by
  simp [shiftAmount, BitVec.extractLsb'_toNat]

/-- A left shift multiplies by a power of two, modulo 4096; an amount above 11 needs no case of its own. -/
theorem shiftLeft_toNat (v : Word) (n : Nat) : (shiftLeft v n).toNat = v.toNat * 2 ^ n % 4096 := by
  rw [shiftLeft, BitVec.toNat_shiftLeft, Nat.shiftLeft_eq]

/-- A logical right shift divides by a power of two, rounding down. -/
theorem shiftRight_toNat (v : Word) (n : Nat) : (shiftRight v n).toNat = v.toNat / 2 ^ n := by
  rw [shiftRight, BitVec.toNat_ushiftRight, Nat.shiftRight_eq_div_pow]

theorem exec_lslR (x y : Reg) (s : State) :
    exec (.lslR x y) s = .next (s.writeBack x (shiftLeft (s.getReg x) (shiftAmount (s.getReg y))) 1) := rfl

theorem exec_lslS (x : Reg) (y : BitVec 3) (s : State) :
    exec (.lslS x y) s = .next (s.writeBack x (shiftLeft (s.getReg x) (bimm3 y)) 1) := rfl

theorem exec_lsrR (x y : Reg) (s : State) :
    exec (.lsrR x y) s = .next (s.writeBack x (shiftRight (s.getReg x) (shiftAmount (s.getReg y))) 1) := rfl

theorem exec_lsrS (x : Reg) (y : BitVec 3) (s : State) :
    exec (.lsrS x y) s = .next (s.writeBack x (shiftRight (s.getReg x) (bimm3 y)) 1) := rfl

/-- Settles O23: both forms of LSL write back the shared left shift, by the amount in register Y of the old state
modulo 16, or by the field's BIMM3 value. -/
theorem logicalShiftLeft : Obligations.LogicalShiftLeft := by
  constructor
  · intro x y s
    refine ⟨⟨_, shiftLeft (s.getReg x) (shiftAmount (s.getReg y)), exec_lslR x y s, ?_, ?_⟩, encodedAs_lslR x y, rfl⟩
    · rw [shiftLeft_toNat, shiftAmount_eq_mod]
    · exact s.writeBack_effect x _ 1
  · intro x y s
    refine ⟨⟨_, shiftLeft (s.getReg x) (bimm3 y), exec_lslS x y s, ?_, ?_⟩, encodedAs_lslS x y, rfl⟩
    · rw [shiftLeft_toNat, bimm3]
    · exact s.writeBack_effect x _ 1

/-- Settles O24: both forms of LSR write back the shared logical right shift, by the amount in register Y of the old
state modulo 16, or by the field's BIMM3 value. -/
theorem logicalShiftRight : Obligations.LogicalShiftRight := by
  constructor
  · intro x y s
    refine ⟨⟨_, shiftRight (s.getReg x) (shiftAmount (s.getReg y)), exec_lsrR x y s, ?_, ?_⟩, encodedAs_lsrR x y, rfl⟩
    · rw [shiftRight_toNat, shiftAmount_eq_mod]
    · exact s.writeBack_effect x _ 1
  · intro x y s
    refine ⟨⟨_, shiftRight (s.getReg x) (bimm3 y), exec_lsrS x y s, ?_, ?_⟩, encodedAs_lsrS x y, rfl⟩
    · rw [shiftRight_toNat, bimm3]
    · exact s.writeBack_effect x _ 1

end Sys2Proof.Machine
end

section
/-! The exceptions (spec/60_exceptions.md): external interrupt entry at an instruction boundary (R256, R257, R261), and
REU in machine mode (R112). -/

namespace Sys2Proof.Machine

/-- An interrupt is delivered exactly when the boundary's input selects it (R258, R261). -/
theorem delivered_iff_highestRequest (s : State) (n : IrqNum) :
    Delivered s n ↔ highestRequest (s.irqInput.headD 0) = some n :=
  (highestRequest_eq_some (s.irqInput.headD 0) n).symm

/-- A boundary is the interrupt n exactly in user mode with the external interrupt n delivered (R256, R257). -/
theorem State.boundary_eq_interrupt (s : State) (n : IrqNum) :
    s.boundary = .interrupt n ↔ s.user = true ∧ n ≠ 0 ∧ Delivered s n := by
  rw [State.boundary, boundaryOf_eq_interrupt, delivered_iff_highestRequest]

/-- At an interrupt boundary the step is the trap entry and nothing else: no instruction is fetched (R256). -/
theorem step_of_boundary_interrupt (s : State) (n : IrqNum) (hb : s.boundary = .interrupt n) :
    step s = .next (s.passBoundary.takeBreak n s.pc) := by
  simp only [step, hb]

/-- Consuming the boundary's input is no part of a trap's effect, which leaves the interrupt input open. -/
theorem trapEffect_passBoundary (s t : State) (n : IrqNum) (ret : Word) :
    TrapEffect s.passBoundary t n ret ↔ TrapEffect s t n ret := by
  simp [TrapEffect, SameRegs, SameCells, NoTransfer]

theorem exec_reu (s : State) : exec .reu s = .next (s.breakWord 0) := rfl

/-- In machine mode REU returns to user mode at UPC (R112). -/
theorem exec_reu_machine (s : State) (hm : s.user = false) : exec .reu s = .next (s.returnToUser s.upc) := by
  rw [exec_reu, s.breakWord_machine_zero hm]

/-- Settles O39: the delivered request makes the boundary an interrupt, so the step is the trap entry with the displaced
instruction's address as return address; REU in machine mode returns to what UPC then holds. -/
theorem externalInterruptEntry : Obligations.ExternalInterruptEntry := by
  intro s n hu hn hd
  have hb : s.boundary = .interrupt n := (s.boundary_eq_interrupt n).2 ⟨hu, hn, hd⟩
  constructor
  · refine ⟨s.passBoundary.takeBreak n s.pc, step_of_boundary_interrupt s n hb, ?_, ?_⟩
    · exact (trapEffect_passBoundary s _ n s.pc).1 (s.passBoundary.takeBreak_effect n s.pc)
    · rw [State.takeBreak_irqInput, State.passBoundary_irqInput]
  · intro h hm hupc
    refine ⟨h.returnToUser h.upc, exec_reu_machine h hm, ?_⟩
    rw [← hupc]
    exact h.returnToUser_effect h.upc

end Sys2Proof.Machine
end

section
/-! Encoding and decoding (spec/30_encoding.md R80 to R94). The sixteen opcodes fall into three families by their
formats; for each family one lemma reads its words as instructions and one reads its instructions back from their
words. Together they say exactly when a first word, with the word after it, is the word of an instruction
(`decodeWords_eq_iff`), and the statements about the encoding follow from that. -/

namespace Sys2Proof

/-! ### The opcodes -/

/-- `op` is the opcode of one of the ten instructions with a register form, a short immediate form and a 12-bit
immediate form (R82, R83, R85): the decoder, the encoder and the well-formedness check agree on its constructors. -/
structure AluOpcode (op : BitVec 4) (formR : Reg → Reg → Instr) (formS : Reg → BitVec 3 → Instr)
    (formL : Reg → Word → Instr) : Prop where
  decodeWords_eq : ∀ sel user w imm, fieldTop w = true → fieldOp w = op →
    decodeWords sel user w imm = aluForm sel (fieldM w) (fieldX w) (fieldY w) imm formR formS formL
  formR_spec : ∀ sel user x y, encode sel (formR x y) = encodeR op x y ∧
    (formR x y).wellFormed sel = regFormOk sel y ∧ (formR x y).namedIn user = true
  formS_spec : ∀ sel user x y, encode sel (formS x y) = encodeS op x y ∧
    (formS x y).wellFormed sel = shortFormOk sel y ∧ (formS x y).namedIn user = true
  formL_spec : ∀ sel user x i, encode sel (formL x i) = encodeL sel op x i ∧
    (formL x i).wellFormed sel = true ∧ (formL x i).namedIn user = true

/-- `op` is the opcode of a shift, with a register form and a short immediate form (R82, R83). -/
structure ShiftOpcode (op : BitVec 4) (formR : Reg → Reg → Instr) (formS : Reg → BitVec 3 → Instr) : Prop where
  decodeWords_eq : ∀ sel user w imm, fieldTop w = true → fieldOp w = op →
    decodeWords sel user w imm = shiftForm (fieldM w) (fieldX w) (fieldY w) formR formS
  formR_spec : ∀ sel user x y, encode sel (formR x y) = encodeR op x y ∧
    (formR x y).wellFormed sel = true ∧ (formR x y).namedIn user = true
  formS_spec : ∀ sel user x y, encode sel (formS x y) = encodeS op x y ∧
    (formS x y).wellFormed sel = true ∧ (formS x y).namedIn user = true

/-- `op` is the opcode of LW, SW or JR, with a register form and an address form (R82, R84). -/
structure AddrOpcode (op : BitVec 4) (formR : Reg → Reg → Instr)
    (formA : Reg → Reg → Word → Instr) : Prop where
  decodeWords_eq : ∀ sel user w imm, fieldTop w = true → fieldOp w = op →
    decodeWords sel user w imm = addrForm (fieldM w) (fieldX w) (fieldY w) imm formR formA
  formR_spec : ∀ sel user x y, encode sel (formR x y) = encodeR op x y ∧
    (formR x y).wellFormed sel = true ∧ (formR x y).namedIn user = true
  formA_spec : ∀ sel user x y i, encode sel (formA x y i) = encodeA op x y i ∧
    (formA x y i).wellFormed sel = true ∧ (formA x y i).namedIn user = true

theorem addrOpcode_lw : AddrOpcode 0 .lwR .lwA :=
  ⟨fun _ _ _ _ ht ho => by simp [decodeWords, ht, ho], fun _ _ _ _ => ⟨rfl, rfl, rfl⟩,
    fun _ _ _ _ _ => ⟨rfl, rfl, rfl⟩⟩

theorem addrOpcode_sw : AddrOpcode 1 .swR .swA :=
  ⟨fun _ _ _ _ ht ho => by simp [decodeWords, ht, ho], fun _ _ _ _ => ⟨rfl, rfl, rfl⟩,
    fun _ _ _ _ _ => ⟨rfl, rfl, rfl⟩⟩

theorem addrOpcode_jr : AddrOpcode 2 .jrR .jrA :=
  ⟨fun _ _ _ _ ht ho => by simp [decodeWords, ht, ho], fun _ _ _ _ => ⟨rfl, rfl, rfl⟩,
    fun _ _ _ _ _ => ⟨rfl, rfl, rfl⟩⟩

theorem shiftOpcode_lsl : ShiftOpcode 4 .lslR .lslS :=
  ⟨fun _ _ _ _ ht ho => by simp [decodeWords, ht, ho], fun _ _ _ _ => ⟨rfl, rfl, rfl⟩,
    fun _ _ _ _ => ⟨rfl, rfl, rfl⟩⟩

theorem shiftOpcode_lsr : ShiftOpcode 5 .lsrR .lsrS :=
  ⟨fun _ _ _ _ ht ho => by simp [decodeWords, ht, ho], fun _ _ _ _ => ⟨rfl, rfl, rfl⟩,
    fun _ _ _ _ => ⟨rfl, rfl, rfl⟩⟩

theorem shiftOpcode_asr : ShiftOpcode 6 .asrR .asrS :=
  ⟨fun _ _ _ _ ht ho => by simp [decodeWords, ht, ho], fun _ _ _ _ => ⟨rfl, rfl, rfl⟩,
    fun _ _ _ _ => ⟨rfl, rfl, rfl⟩⟩

theorem aluOpcode_mv : AluOpcode 3 .mvR .mvS .mvL :=
  ⟨fun _ _ _ _ ht ho => by simp [decodeWords, ht, ho], fun _ _ _ _ => ⟨rfl, rfl, rfl⟩,
    fun _ _ _ _ => ⟨rfl, rfl, rfl⟩, fun _ _ _ _ => ⟨rfl, rfl, rfl⟩⟩

theorem aluOpcode_eq : AluOpcode 7 .eqR .eqS .eqL :=
  ⟨fun _ _ _ _ ht ho => by simp [decodeWords, ht, ho], fun _ _ _ _ => ⟨rfl, rfl, rfl⟩,
    fun _ _ _ _ => ⟨rfl, rfl, rfl⟩, fun _ _ _ _ => ⟨rfl, rfl, rfl⟩⟩

theorem aluOpcode_lr : AluOpcode 8 .lrR .lrS .lrL :=
  ⟨fun _ _ _ _ ht ho => by simp [decodeWords, ht, ho], fun _ _ _ _ => ⟨rfl, rfl, rfl⟩,
    fun _ _ _ _ => ⟨rfl, rfl, rfl⟩, fun _ _ _ _ => ⟨rfl, rfl, rfl⟩⟩

theorem aluOpcode_gr : AluOpcode 9 .grR .grS .grL :=
  ⟨fun _ _ _ _ ht ho => by simp [decodeWords, ht, ho], fun _ _ _ _ => ⟨rfl, rfl, rfl⟩,
    fun _ _ _ _ => ⟨rfl, rfl, rfl⟩, fun _ _ _ _ => ⟨rfl, rfl, rfl⟩⟩

theorem aluOpcode_add : AluOpcode 10 .addR .addS .addL :=
  ⟨fun _ _ _ _ ht ho => by simp [decodeWords, ht, ho], fun _ _ _ _ => ⟨rfl, rfl, rfl⟩,
    fun _ _ _ _ => ⟨rfl, rfl, rfl⟩, fun _ _ _ _ => ⟨rfl, rfl, rfl⟩⟩

theorem aluOpcode_sub : AluOpcode 11 .subR .subS .subL :=
  ⟨fun _ _ _ _ ht ho => by simp [decodeWords, ht, ho], fun _ _ _ _ => ⟨rfl, rfl, rfl⟩,
    fun _ _ _ _ => ⟨rfl, rfl, rfl⟩, fun _ _ _ _ => ⟨rfl, rfl, rfl⟩⟩

theorem aluOpcode_rsb : AluOpcode 12 .rsbR .rsbS .rsbL :=
  ⟨fun _ _ _ _ ht ho => by simp [decodeWords, ht, ho], fun _ _ _ _ => ⟨rfl, rfl, rfl⟩,
    fun _ _ _ _ => ⟨rfl, rfl, rfl⟩, fun _ _ _ _ => ⟨rfl, rfl, rfl⟩⟩

theorem aluOpcode_and : AluOpcode 13 .andR .andS .andL :=
  ⟨fun _ _ _ _ ht ho => by simp [decodeWords, ht, ho], fun _ _ _ _ => ⟨rfl, rfl, rfl⟩,
    fun _ _ _ _ => ⟨rfl, rfl, rfl⟩, fun _ _ _ _ => ⟨rfl, rfl, rfl⟩⟩

theorem aluOpcode_or : AluOpcode 14 .orR .orS .orL :=
  ⟨fun _ _ _ _ ht ho => by simp [decodeWords, ht, ho], fun _ _ _ _ => ⟨rfl, rfl, rfl⟩,
    fun _ _ _ _ => ⟨rfl, rfl, rfl⟩, fun _ _ _ _ => ⟨rfl, rfl, rfl⟩⟩

theorem aluOpcode_xor : AluOpcode 15 .xorR .xorS .xorL :=
  ⟨fun _ _ _ _ ht ho => by simp [decodeWords, ht, ho], fun _ _ _ _ => ⟨rfl, rfl, rfl⟩,
    fun _ _ _ _ => ⟨rfl, rfl, rfl⟩, fun _ _ _ _ => ⟨rfl, rfl, rfl⟩⟩

/-- Every opcode belongs to one of the three families (R86). -/
theorem opcode_family (op : BitVec 4) : (∃ formR formS formL, AluOpcode op formR formS formL) ∨
    (∃ formR formS, ShiftOpcode op formR formS) ∨ ∃ formR formA, AddrOpcode op formR formA := by
  match op with
  | ⟨⟨0, _⟩⟩ => exact .inr (.inr ⟨_, _, addrOpcode_lw⟩)
  | ⟨⟨1, _⟩⟩ => exact .inr (.inr ⟨_, _, addrOpcode_sw⟩)
  | ⟨⟨2, _⟩⟩ => exact .inr (.inr ⟨_, _, addrOpcode_jr⟩)
  | ⟨⟨3, _⟩⟩ => exact .inl ⟨_, _, _, aluOpcode_mv⟩
  | ⟨⟨4, _⟩⟩ => exact .inr (.inl ⟨_, _, shiftOpcode_lsl⟩)
  | ⟨⟨5, _⟩⟩ => exact .inr (.inl ⟨_, _, shiftOpcode_lsr⟩)
  | ⟨⟨6, _⟩⟩ => exact .inr (.inl ⟨_, _, shiftOpcode_asr⟩)
  | ⟨⟨7, _⟩⟩ => exact .inl ⟨_, _, _, aluOpcode_eq⟩
  | ⟨⟨8, _⟩⟩ => exact .inl ⟨_, _, _, aluOpcode_lr⟩
  | ⟨⟨9, _⟩⟩ => exact .inl ⟨_, _, _, aluOpcode_gr⟩
  | ⟨⟨10, _⟩⟩ => exact .inl ⟨_, _, _, aluOpcode_add⟩
  | ⟨⟨11, _⟩⟩ => exact .inl ⟨_, _, _, aluOpcode_sub⟩
  | ⟨⟨12, _⟩⟩ => exact .inl ⟨_, _, _, aluOpcode_rsb⟩
  | ⟨⟨13, _⟩⟩ => exact .inl ⟨_, _, _, aluOpcode_and⟩
  | ⟨⟨14, _⟩⟩ => exact .inl ⟨_, _, _, aluOpcode_or⟩
  | ⟨⟨15, _⟩⟩ => exact .inl ⟨_, _, _, aluOpcode_xor⟩
  | ⟨⟨n + 16, hn⟩⟩ => exact absurd hn (by omega)

/-! ### Words and instructions -/

/-- `i` is an instruction of the mode whose encoding begins the words `w` and `imm`. -/
structure BeginsWith (sel : Imm12Select) (user : Bool) (w imm : Word) (i : Instr) : Prop where
  wellFormed : i.wellFormed sel = true
  namedIn : i.namedIn user = true
  words : encode sel i = [w] ∨ encode sel i = [w, imm]

section

variable {op : BitVec 4} {formR : Reg → Reg → Instr} {formS : Reg → BitVec 3 → Instr}
  {formL : Reg → Word → Instr} {formA : Reg → Reg → Word → Instr} {sel : Imm12Select} {user : Bool} {w imm : Word}

/-- The 12-bit form is selected by M = 1 under one value of the parameter and by M = 0 under the other, and by
Y = 0 (R85, R94). -/
theorem longSelected_iff (sel : Imm12Select) (m : Bool) (y : BitVec 3) :
    longSelected sel m y = true ↔ m = (sel == .m1y0) ∧ y = 0 := by
  cases sel <;> cases m <;> simp [longSelected]

/-- A well-formed register form does not select the 12-bit form (R82, R94). -/
theorem longSelected_regForm (y : Reg) (h : regFormOk sel y = true) : longSelected sel true y.bits = false := by
  cases sel <;> simp_all [longSelected, regFormOk]

/-- A well-formed short form does not select the 12-bit form (R83, R94). -/
theorem longSelected_shortForm (y : BitVec 3) (h : shortFormOk sel y = true) : longSelected sel false y = false := by
  cases sel <;> simp_all [longSelected, shortFormOk]

/-- Where the fields do not select the 12-bit form, the register they name is one the register form can name. -/
theorem regFormOk_ofBits (y : BitVec 3) (h : longSelected sel true y = false) :
    regFormOk sel (Reg.ofBits y) = true := by
  cases sel <;> simp_all [longSelected, regFormOk]

/-- Where the fields do not select the 12-bit form, the field Y is one the short form can hold. -/
theorem shortFormOk_of_not_long (y : BitVec 3) (h : longSelected sel false y = false) :
    shortFormOk sel y = true := by
  cases sel <;> simp_all [longSelected, shortFormOk]

/-- A word of the 16-opcode space whose M field is known is the word of its fields. -/
theorem encodeOp_of_fields (m : Bool) (ht : fieldTop w = true) (ho : fieldOp w = op) (hm : fieldM w = m) :
    encodeOp (fieldX w) m (fieldY w) op = w := by
  rw [← ho, ← hm]
  exact encodeOp_fields w ht

/-- A word of the ten opcodes is the first word of the instruction that the decoder reads from it. -/
theorem AluOpcode.beginsWith_decodeWords (h : AluOpcode op formR formS formL) (ht : fieldTop w = true)
    (ho : fieldOp w = op) : BeginsWith sel user w imm (decodeWords sel user w imm) := by
  rw [h.decodeWords_eq sel user w imm ht ho, aluForm]
  by_cases hl : longSelected sel (fieldM w) (fieldY w) = true
  · obtain ⟨hm, hy⟩ := (longSelected_iff sel _ _).1 hl
    obtain ⟨he, hw, hn⟩ := h.formL_spec sel user (Reg.ofBits (fieldX w)) imm
    have hword : encodeOp (fieldX w) (sel == .m1y0) 0 op = w := by
      rw [← hy]
      exact encodeOp_of_fields _ ht ho hm
    rw [if_pos hl]
    exact ⟨hw, hn, .inr (by rw [he, encodeL, Reg.bits_ofBits, hword])⟩
  · rw [if_neg hl]
    rw [Bool.not_eq_true] at hl
    by_cases hm : fieldM w = true
    · obtain ⟨he, hw, hn⟩ := h.formR_spec sel user (Reg.ofBits (fieldX w)) (Reg.ofBits (fieldY w))
      rw [if_pos hm]
      rw [hm] at hl
      refine ⟨hw.trans (regFormOk_ofBits _ hl), hn, .inl ?_⟩
      rw [he, encodeR, Reg.bits_ofBits, Reg.bits_ofBits, encodeOp_of_fields true ht ho hm]
    · obtain ⟨he, hw, hn⟩ := h.formS_spec sel user (Reg.ofBits (fieldX w)) (fieldY w)
      rw [if_neg hm]
      rw [Bool.not_eq_true] at hm
      rw [hm] at hl
      refine ⟨hw.trans (shortFormOk_of_not_long _ hl), hn, .inl ?_⟩
      rw [he, encodeS, Reg.bits_ofBits, encodeOp_of_fields false ht ho hm]

/-- The same of a shift word. -/
theorem ShiftOpcode.beginsWith_decodeWords (h : ShiftOpcode op formR formS) (ht : fieldTop w = true)
    (ho : fieldOp w = op) : BeginsWith sel user w imm (decodeWords sel user w imm) := by
  rw [h.decodeWords_eq sel user w imm ht ho, shiftForm]
  by_cases hm : fieldM w = true
  · obtain ⟨he, hw, hn⟩ := h.formR_spec sel user (Reg.ofBits (fieldX w)) (Reg.ofBits (fieldY w))
    rw [if_pos hm]
    refine ⟨hw, hn, .inl ?_⟩
    rw [he, encodeR, Reg.bits_ofBits, Reg.bits_ofBits, encodeOp_of_fields true ht ho hm]
  · obtain ⟨he, hw, hn⟩ := h.formS_spec sel user (Reg.ofBits (fieldX w)) (fieldY w)
    rw [if_neg hm]
    refine ⟨hw, hn, .inl ?_⟩
    rw [he, encodeS, Reg.bits_ofBits, encodeOp_of_fields false ht ho (Bool.not_eq_true _ ▸ hm)]

/-- The same of a word of LW, SW or JR. -/
theorem AddrOpcode.beginsWith_decodeWords (h : AddrOpcode op formR formA) (ht : fieldTop w = true)
    (ho : fieldOp w = op) : BeginsWith sel user w imm (decodeWords sel user w imm) := by
  rw [h.decodeWords_eq sel user w imm ht ho, addrForm]
  by_cases hm : fieldM w = true
  · obtain ⟨he, hw, hn⟩ := h.formR_spec sel user (Reg.ofBits (fieldX w)) (Reg.ofBits (fieldY w))
    rw [if_pos hm]
    refine ⟨hw, hn, .inl ?_⟩
    rw [he, encodeR, Reg.bits_ofBits, Reg.bits_ofBits, encodeOp_of_fields true ht ho hm]
  · obtain ⟨he, hw, hn⟩ := h.formA_spec sel user (Reg.ofBits (fieldX w)) (Reg.ofBits (fieldY w)) imm
    rw [if_neg hm]
    refine ⟨hw, hn, .inr ?_⟩
    rw [he, encodeA, Reg.bits_ofBits, Reg.bits_ofBits, encodeOp_of_fields false ht ho (Bool.not_eq_true _ ▸ hm)]

/-- The name that the mode gives to a BRK word fits the mode and encodes as that word (R111). -/
theorem brkForm_spec (sel : Imm12Select) (user : Bool) (x : BitVec 3) :
    (brkForm user x).wellFormed sel = true ∧ (brkForm user x).namedIn user = true ∧
      encode sel (brkForm user x) = [encodeB x 0] := by
  cases user
  · by_cases hx : x = 0
    · subst hx
      exact ⟨rfl, rfl, rfl⟩
    · have hr : Reg.ofBits x ≠ .r0 := fun h => hx ((Reg.ofBits_eq_r0 x).1 h)
      have hf : brkForm false x = .jru (Reg.ofBits x) := if_neg hx
      rw [hf]
      exact ⟨bne_iff_ne.2 hr, rfl, by rw [encode, Reg.bits_ofBits]⟩
  · exact ⟨rfl, rfl, rfl⟩

/-- The same of a word with bit 11 = 0: a BRK word or a JZ (R81). -/
theorem beginsWith_decodeWords_formatB (ht : fieldTop w = false) :
    BeginsWith sel user w imm (decodeWords sel user w imm) := by
  have hw := encodeB_fields w ht
  simp only [decodeWords, ht, Bool.false_eq_true, if_false]
  by_cases hh : fieldH w = 0
  · rw [if_pos hh]
    rw [hh] at hw
    obtain ⟨h1, h2, h3⟩ := brkForm_spec sel user (fieldX w)
    exact ⟨h1, h2, .inl (by rw [h3, hw])⟩
  · rw [if_neg hh]
    exact ⟨bne_iff_ne.2 hh, rfl, .inl (by rw [encode, Reg.bits_ofBits, hw])⟩

/-- Every word is the first word of the instruction that the decoder reads from it (R91). -/
theorem beginsWith_decodeWords (sel : Imm12Select) (user : Bool) (w imm : Word) :
    BeginsWith sel user w imm (decodeWords sel user w imm) := by
  by_cases ht : fieldTop w = true
  · rcases opcode_family (fieldOp w) with ⟨_, _, _, h⟩ | ⟨_, _, h⟩ | ⟨_, _, h⟩
    · exact h.beginsWith_decodeWords ht rfl
    · exact h.beginsWith_decodeWords ht rfl
    · exact h.beginsWith_decodeWords ht rfl
  · exact beginsWith_decodeWords_formatB (Bool.not_eq_true _ ▸ ht)

/-- The words of a one-word encoding. -/
theorem beginsWith_one {i : Instr} {v : Word} (h : BeginsWith sel user w imm i) (he : encode sel i = [v]) : w = v := by
  obtain ⟨-, -, h | h⟩ := h <;> simp_all

/-- The words of a two-word encoding. -/
theorem beginsWith_two {i : Instr} {v k : Word} (h : BeginsWith sel user w imm i) (he : encode sel i = [v, k]) :
    w = v ∧ imm = k := by
  obtain ⟨-, -, h | h⟩ := h <;> simp_all

section

variable (x y : Reg) (z : BitVec 3) (k : Word)

theorem AluOpcode.decodeWords_formR (h : AluOpcode op formR formS formL)
    (hb : BeginsWith sel user w imm (formR x y)) : decodeWords sel user w imm = formR x y := by
  obtain ⟨he, hw, -⟩ := h.formR_spec sel user x y
  have hl := longSelected_regForm y (hw.symm.trans hb.wellFormed)
  rw [beginsWith_one hb he, h.decodeWords_eq _ _ _ _ (by simp) (by simp)]
  simp [aluForm, hl]

theorem AluOpcode.decodeWords_formS (h : AluOpcode op formR formS formL)
    (hb : BeginsWith sel user w imm (formS x z)) : decodeWords sel user w imm = formS x z := by
  obtain ⟨he, hw, -⟩ := h.formS_spec sel user x z
  have hl := longSelected_shortForm z (hw.symm.trans hb.wellFormed)
  rw [beginsWith_one hb he, h.decodeWords_eq _ _ _ _ (by simp) (by simp)]
  simp [aluForm, hl]

theorem AluOpcode.decodeWords_formL (h : AluOpcode op formR formS formL)
    (hb : BeginsWith sel user w imm (formL x k)) : decodeWords sel user w imm = formL x k := by
  obtain ⟨hw, hi⟩ := beginsWith_two hb (h.formL_spec sel user x k).1
  have hl : longSelected sel (sel == .m1y0) 0 = true := (longSelected_iff sel _ _).2 ⟨rfl, rfl⟩
  rw [hw, hi, h.decodeWords_eq _ _ _ _ (by simp) (by simp)]
  simp only [aluForm, fieldM_encodeOp, fieldY_encodeOp, fieldX_encodeOp, hl, if_true, Reg.ofBits_bits]

theorem ShiftOpcode.decodeWords_formR (h : ShiftOpcode op formR formS)
    (hb : BeginsWith sel user w imm (formR x y)) : decodeWords sel user w imm = formR x y := by
  rw [beginsWith_one hb (h.formR_spec sel user x y).1, h.decodeWords_eq _ _ _ _ (by simp) (by simp)]
  simp [shiftForm]

theorem ShiftOpcode.decodeWords_formS (h : ShiftOpcode op formR formS)
    (hb : BeginsWith sel user w imm (formS x z)) : decodeWords sel user w imm = formS x z := by
  rw [beginsWith_one hb (h.formS_spec sel user x z).1, h.decodeWords_eq _ _ _ _ (by simp) (by simp)]
  simp [shiftForm]

theorem AddrOpcode.decodeWords_formR (h : AddrOpcode op formR formA)
    (hb : BeginsWith sel user w imm (formR x y)) : decodeWords sel user w imm = formR x y := by
  rw [beginsWith_one hb (h.formR_spec sel user x y).1, h.decodeWords_eq _ _ _ _ (by simp) (by simp)]
  simp [addrForm]

theorem AddrOpcode.decodeWords_formA (h : AddrOpcode op formR formA)
    (hb : BeginsWith sel user w imm (formA x y k)) : decodeWords sel user w imm = formA x y k := by
  obtain ⟨hw, hi⟩ := beginsWith_two hb (h.formA_spec sel user x y k).1
  rw [hw, hi, h.decodeWords_eq _ _ _ _ (by simp) (by simp)]
  simp [addrForm]

end

/-- A word with bit 11 = 0 and H = 0 is read as the BRK word's name in the mode (R87, R111). -/
theorem decodeWords_encodeB_zero (sel : Imm12Select) (user : Bool) (x : BitVec 3) (imm : Word) :
    decodeWords sel user (encodeB x 0) imm = brkForm user x := by
  simp [decodeWords]

theorem decodeWords_reu (hb : BeginsWith sel user w imm .reu) : decodeWords sel user w imm = .reu := by
  have hu : user = false := by simpa [Instr.namedIn] using hb.namedIn
  rw [beginsWith_one hb rfl, hu]
  exact decodeWords_encodeB_zero sel false 0 imm

theorem decodeWords_brk {n : IrqNum} (hb : BeginsWith sel user w imm (.brk n)) :
    decodeWords sel user w imm = .brk n := by
  have hu : user = true := hb.namedIn
  rw [beginsWith_one hb rfl, decodeWords_encodeB_zero, hu]
  rfl

theorem decodeWords_jru {x : Reg} (hb : BeginsWith sel user w imm (.jru x)) :
    decodeWords sel user w imm = .jru x := by
  have hu : user = false := by simpa [Instr.namedIn] using hb.namedIn
  have hx : x ≠ .r0 := by simpa [Instr.wellFormed] using hb.wellFormed
  rw [beginsWith_one hb rfl, decodeWords_encodeB_zero, hu]
  simp [brkForm, hx]

theorem decodeWords_jz {x : Reg} {h : BitVec 8} (hb : BeginsWith sel user w imm (.jz x h)) :
    decodeWords sel user w imm = .jz x h := by
  have hh : h ≠ 0 := by simpa [Instr.wellFormed] using hb.wellFormed
  rw [beginsWith_one hb rfl]
  simp only [decodeWords, fieldTop_encodeB, fieldH_encodeB, fieldX_encodeB, Reg.ofBits_bits, if_neg hh,
    Bool.false_eq_true, if_false]

end

/-- The decoder reads every instruction of the mode back from its words, with every operand (R87). -/
theorem decodeWords_of_beginsWith {sel : Imm12Select} {user : Bool} {w imm : Word} (i : Instr)
    (hb : BeginsWith sel user w imm i) : decodeWords sel user w imm = i := by
  cases i with
  | reu => exact decodeWords_reu hb
  | brk n => exact decodeWords_brk hb
  | jru x => exact decodeWords_jru hb
  | jz x h => exact decodeWords_jz hb
  | lwR x y => exact addrOpcode_lw.decodeWords_formR x y hb
  | lwA x y k => exact addrOpcode_lw.decodeWords_formA x y k hb
  | swR x y => exact addrOpcode_sw.decodeWords_formR x y hb
  | swA x y k => exact addrOpcode_sw.decodeWords_formA x y k hb
  | jrR x y => exact addrOpcode_jr.decodeWords_formR x y hb
  | jrA x y k => exact addrOpcode_jr.decodeWords_formA x y k hb
  | lslR x y => exact shiftOpcode_lsl.decodeWords_formR x y hb
  | lslS x z => exact shiftOpcode_lsl.decodeWords_formS x z hb
  | lsrR x y => exact shiftOpcode_lsr.decodeWords_formR x y hb
  | lsrS x z => exact shiftOpcode_lsr.decodeWords_formS x z hb
  | asrR x y => exact shiftOpcode_asr.decodeWords_formR x y hb
  | asrS x z => exact shiftOpcode_asr.decodeWords_formS x z hb
  | mvR x y => exact aluOpcode_mv.decodeWords_formR x y hb
  | mvS x z => exact aluOpcode_mv.decodeWords_formS x z hb
  | mvL x k => exact aluOpcode_mv.decodeWords_formL x k hb
  | eqR x y => exact aluOpcode_eq.decodeWords_formR x y hb
  | eqS x z => exact aluOpcode_eq.decodeWords_formS x z hb
  | eqL x k => exact aluOpcode_eq.decodeWords_formL x k hb
  | lrR x y => exact aluOpcode_lr.decodeWords_formR x y hb
  | lrS x z => exact aluOpcode_lr.decodeWords_formS x z hb
  | lrL x k => exact aluOpcode_lr.decodeWords_formL x k hb
  | grR x y => exact aluOpcode_gr.decodeWords_formR x y hb
  | grS x z => exact aluOpcode_gr.decodeWords_formS x z hb
  | grL x k => exact aluOpcode_gr.decodeWords_formL x k hb
  | addR x y => exact aluOpcode_add.decodeWords_formR x y hb
  | addS x z => exact aluOpcode_add.decodeWords_formS x z hb
  | addL x k => exact aluOpcode_add.decodeWords_formL x k hb
  | subR x y => exact aluOpcode_sub.decodeWords_formR x y hb
  | subS x z => exact aluOpcode_sub.decodeWords_formS x z hb
  | subL x k => exact aluOpcode_sub.decodeWords_formL x k hb
  | rsbR x y => exact aluOpcode_rsb.decodeWords_formR x y hb
  | rsbS x z => exact aluOpcode_rsb.decodeWords_formS x z hb
  | rsbL x k => exact aluOpcode_rsb.decodeWords_formL x k hb
  | andR x y => exact aluOpcode_and.decodeWords_formR x y hb
  | andS x z => exact aluOpcode_and.decodeWords_formS x z hb
  | andL x k => exact aluOpcode_and.decodeWords_formL x k hb
  | orR x y => exact aluOpcode_or.decodeWords_formR x y hb
  | orS x z => exact aluOpcode_or.decodeWords_formS x z hb
  | orL x k => exact aluOpcode_or.decodeWords_formL x k hb
  | xorR x y => exact aluOpcode_xor.decodeWords_formR x y hb
  | xorS x z => exact aluOpcode_xor.decodeWords_formS x z hb
  | xorL x k => exact aluOpcode_xor.decodeWords_formL x k hb

/-- What the decoder reads from a word and the word after it is the one instruction of the mode whose encoding begins
them (R87, R91). -/
theorem decodeWords_eq_iff (sel : Imm12Select) (user : Bool) (w imm : Word) (i : Instr) :
    decodeWords sel user w imm = i ↔ BeginsWith sel user w imm i := by
  constructor
  · rintro rfl
    exact beginsWith_decodeWords sel user w imm
  · exact decodeWords_of_beginsWith i

/-! ### Lengths and streams -/

/-- The first word of a well-formed instruction tells its length (R88). -/
theorem lengthFromFirstWord (i : Instr) : Laws.LengthFromFirstWord.Statement i := by
  open Laws.LengthFromFirstWord in
  cases i with
  | reu => exact reu
  | brk n => exact brk n
  | jru x => exact jru x
  | jz x h => exact jz x h
  | lwR x y => exact lwR x y
  | lwA x y k => exact lwA x y k
  | swR x y => exact swR x y
  | swA x y k => exact swA x y k
  | jrR x y => exact jrR x y
  | jrA x y k => exact jrA x y k
  | lslR x y => exact lslR x y
  | lslS x z => exact lslS x z
  | lsrR x y => exact lsrR x y
  | lsrS x z => exact lsrS x z
  | asrR x y => exact asrR x y
  | asrS x z => exact asrS x z
  | mvR x y => exact mvR x y
  | mvS x z => exact mvS x z
  | mvL x k => exact mvL x k
  | eqR x y => exact eqR x y
  | eqS x z => exact eqS x z
  | eqL x k => exact eqL x k
  | lrR x y => exact lrR x y
  | lrS x z => exact lrS x z
  | lrL x k => exact lrL x k
  | grR x y => exact grR x y
  | grS x z => exact grS x z
  | grL x k => exact grL x k
  | addR x y => exact addR x y
  | addS x z => exact addS x z
  | addL x k => exact addL x k
  | subR x y => exact subR x y
  | subS x z => exact subS x z
  | subL x k => exact subL x k
  | rsbR x y => exact rsbR x y
  | rsbS x z => exact rsbS x z
  | rsbL x k => exact rsbL x k
  | andR x y => exact andR x y
  | andS x z => exact andS x z
  | andL x k => exact andL x k
  | orR x y => exact orR x y
  | orS x z => exact orS x z
  | orL x k => exact orL x k
  | xorR x y => exact xorR x y
  | xorS x z => exact xorS x z
  | xorL x k => exact xorL x k

theorem instrLen_eq_one_or_two (sel : Imm12Select) (w : Word) : instrLen sel w = 1 ∨ instrLen sel w = 2 := by
  unfold instrLen
  split
  · split
    any_goals split
    all_goals simp
  · exact .inl rfl

/-- A well-formed instruction is encoded in one word or in two, and its first word says which (R80, R88). -/
theorem encode_eq_one_or_two (sel : Imm12Select) (i : Instr) (h : i.wellFormed sel = true) :
    (∃ w, encode sel i = [w] ∧ instrLen sel w = 1) ∨ ∃ w imm, encode sel i = [w, imm] ∧ instrLen sel w = 2 := by
  obtain ⟨w, tail, he, hl⟩ := lengthFromFirstWord i sel h
  rw [he] at hl
  match tail, instrLen_eq_one_or_two sel w with
  | [], .inl h1 => exact .inl ⟨w, he, h1⟩
  | [], .inr h2 => simp [h2] at hl
  | [imm], .inl h1 => simp [h1] at hl
  | [imm], .inr h2 => exact .inr ⟨w, imm, he, h2⟩
  | _ :: _ :: _, .inl h1 => simp [h1] at hl
  | _ :: _ :: _, .inr h2 => simp [h2] at hl

/-- Decoding a stream whose first word is the word of a one-word instruction. -/
theorem decode_one {sel : Imm12Select} {w : Word} (user : Bool) (rest : List Word) (h : instrLen sel w = 1) :
    decode sel user (w :: rest) = .ok (decodeWords sel user w 0, rest) := by
  simp [decode, h]

/-- Decoding a stream that begins with the two words of a two-word instruction. -/
theorem decode_two {sel : Imm12Select} {w : Word} (user : Bool) (imm : Word) (rest : List Word)
    (h : instrLen sel w = 2) : decode sel user (w :: imm :: rest) = .ok (decodeWords sel user w imm, rest) := by
  simp [decode, h]

/-- Decoding the words of an instruction of the mode gives it back, and leaves the words after them. -/
theorem decode_encode {sel : Imm12Select} {user : Bool} {i : Instr} (rest : List Word)
    (hw : i.wellFormed sel = true) (hn : i.namedIn user = true) :
    decode sel user (encode sel i ++ rest) = .ok (i, rest) := by
  obtain ⟨w, he, hl⟩ | ⟨w, imm, he, hl⟩ := encode_eq_one_or_two sel i hw
  · rw [he, List.singleton_append, decode_one user rest hl,
      decodeWords_of_beginsWith i ⟨hw, hn, .inl he⟩]
  · rw [he, List.cons_append, List.singleton_append, decode_two user imm rest hl,
      decodeWords_of_beginsWith i ⟨hw, hn, .inr he⟩]

/-- The encoding of what is read from a one-word instruction's word is that word. -/
theorem encode_decodeWords_one {sel : Imm12Select} {w : Word} (user : Bool) (imm : Word) (h : instrLen sel w = 1) :
    encode sel (decodeWords sel user w imm) = [w] := by
  obtain ⟨hw, -, he | he⟩ := beginsWith_decodeWords sel user w imm
  · exact he
  · obtain ⟨v, hv, -⟩ | ⟨v, k, hv, hl⟩ := encode_eq_one_or_two sel _ hw
    · simp [he] at hv
    · simp_all

/-- The encoding of what is read from a two-word instruction's words is those words. -/
theorem encode_decodeWords_two {sel : Imm12Select} {w : Word} (user : Bool) (imm : Word) (h : instrLen sel w = 2) :
    encode sel (decodeWords sel user w imm) = [w, imm] := by
  obtain ⟨hw, -, he | he⟩ := beginsWith_decodeWords sel user w imm
  · obtain ⟨v, hv, hl⟩ | ⟨v, k, hv, -⟩ := encode_eq_one_or_two sel _ hw
    · simp_all
    · simp [he] at hv
  · exact he

/-- The streams from which the decoder reads an instruction. -/
theorem decode_eq_ok {sel : Imm12Select} {user : Bool} {ws rest : List Word} {i : Instr}
    (h : decode sel user ws = .ok (i, rest)) :
    (∃ w, instrLen sel w = 1 ∧ ws = w :: rest ∧ i = decodeWords sel user w 0) ∨
      ∃ w imm, instrLen sel w = 2 ∧ ws = w :: imm :: rest ∧ i = decodeWords sel user w imm := by
  match ws with
  | [] => simp [decode] at h
  | w :: tail =>
    rcases instrLen_eq_one_or_two sel w with hl | hl
    · rw [decode_one user tail hl] at h
      cases h
      exact .inl ⟨w, hl, rfl, rfl⟩
    · match tail with
      | [] => simp [decode, hl] at h
      | imm :: tail =>
        rw [decode_two user imm tail hl] at h
        cases h
        exact .inr ⟨w, imm, hl, rfl, rfl⟩

/-- Settles O1: the first word of an encoding tells how many words are read, and from them the decoder reads the
instruction back. -/
theorem decodeInvertsEncode : Obligations.DecodeInvertsEncode := by
  intro sel user i rest hw hn
  exact decode_encode rest hw hn

/-- Settles O2: the stream begins with one or two words, as its first word says; they are the encoding of the
instruction that is read from them. -/
theorem encodeInvertsDecode : Obligations.EncodeInvertsDecode := by
  intro sel user ws i rest h
  obtain ⟨w, hl, rfl, rfl⟩ | ⟨w, imm, hl, rfl, rfl⟩ := decode_eq_ok h
  · obtain ⟨hw, hn, -⟩ := beginsWith_decodeWords sel user w 0
    exact ⟨hw, hn, by rw [encode_decodeWords_one user 0 hl, List.singleton_append]⟩
  · obtain ⟨hw, hn, -⟩ := beginsWith_decodeWords sel user w imm
    exact ⟨hw, hn, by rw [encode_decodeWords_two user imm hl, List.cons_append, List.singleton_append]⟩

/-- Settles O3: the instruction is the one that the decoder reads from the two words; another one would be read back
from the same words (O1). -/
theorem everyWordBeginsOneInstruction : Obligations.EveryWordBeginsOneInstruction := by
  intro sel user w imm
  obtain ⟨hw, hn, he⟩ := beginsWith_decodeWords sel user w imm
  refine ⟨decodeWords sel user w imm, ⟨hw, hn, ?_⟩, ?_⟩
  · rcases he with he | he
    · exact ⟨[imm], by rw [he, List.singleton_append]⟩
    · exact ⟨[], by rw [he, List.append_nil]⟩
  · rintro j ⟨hjw, hjn, rest, hj⟩
    refine (decodeWords_of_beginsWith j ⟨hjw, hjn, ?_⟩).symm
    obtain ⟨v, hv, -⟩ | ⟨v, k, hv, -⟩ := encode_eq_one_or_two sel j hjw <;> rw [hv] at hj
    · cases hj
      exact .inl hv
    · cases hj
      exact .inr hv

/-! ### What the parameter and the mode decide -/

/-- The number of words of an instruction does not depend on the parameter. -/
theorem length_encode (sel sel' : Imm12Select) (i : Instr) : (encode sel i).length = (encode sel' i).length := by
  cases i <;> rfl

/-- What the decoder reads from a word has the length that the word tells. -/
theorem length_encode_decodeWords (sel : Imm12Select) (user : Bool) (w imm : Word) :
    (encode sel (decodeWords sel user w imm)).length = instrLen sel w := by
  rcases instrLen_eq_one_or_two sel w with h | h
  · rw [encode_decodeWords_one user imm h, h]
    rfl
  · rw [encode_decodeWords_two user imm h, h]
    rfl

/-- The parameter matters to the decoder only through the selection of the 12-bit form. -/
theorem decodeWords_congr_sel {sel sel' : Imm12Select} {w : Word} (user : Bool) (imm : Word)
    (h : longSelected sel (fieldM w) (fieldY w) = longSelected sel' (fieldM w) (fieldY w)) :
    decodeWords sel user w imm = decodeWords sel' user w imm := by
  simp only [decodeWords, aluForm, h]

/-- With another Y than 0 the two values of the parameter select alike, and with Y = 0 they do not. -/
theorem longSelected_m1y0_eq_m0y0 (m : Bool) (y : BitVec 3) :
    longSelected .m1y0 m y = longSelected .m0y0 m y ↔ y ≠ 0 := by
  cases m <;> simp [longSelected]

/-- An opcode other than LW, SW, JR and the shifts has a 12-bit form, which makes its instruction two words long (R85,
R88). -/
theorem instrLen_alu (sel : Imm12Select) {w : Word} (ht : fieldTop w = true)
    (ho : (fieldOp w).toNat ∉ [0, 1, 2, 4, 5, 6]) :
    instrLen sel w = if longSelected sel (fieldM w) (fieldY w) then 2 else 1 := by
  simp only [List.mem_cons, List.not_mem_nil, or_false, not_or] at ho
  obtain ⟨h0, h1, h2, h4, h5, h6⟩ := ho
  rw [instrLen, if_pos ht]
  split
  any_goals contradiction
  rfl

/-- The other six opcodes are read without the parameter (R82 to R84). -/
theorem decodeWords_sel_of_opcode (sel sel' : Imm12Select) (user : Bool) (imm : Word) {w : Word}
    (ho : (fieldOp w).toNat ∈ [0, 1, 2, 4, 5, 6]) : decodeWords sel user w imm = decodeWords sel' user w imm := by
  simp only [List.mem_cons, List.not_mem_nil, or_false] at ho
  rcases ho with h | h | h | h | h | h <;> simp [decodeWords, h]

theorem fieldTop_iff (w : Word) : fieldTop w = true ↔ 2048 ≤ w.toNat := by
  rw [fieldTop_eq, decide_eq_true_eq]
  have := w.isLt
  omega

theorem fieldY_eq_zero_iff (w : Word) : fieldY w = 0 ↔ w.toNat / 16 % 8 = 0 := by
  rw [← BitVec.toNat_inj, fieldY_toNat]
  rfl

theorem fieldH_eq_zero_iff (w : Word) : fieldH w = 0#8 ↔ w.toNat % 256 = 0 := by
  rw [← BitVec.toNat_inj, fieldH_toNat]
  rfl

/-- Settles O4: where the condition holds the two values of the parameter give the word different lengths, and so
different instructions; where it fails they give the same reading. -/
theorem imm12SelectMattersOnlyForYZero : Obligations.Imm12SelectMattersOnlyForYZero := by
  intro w
  rw [← fieldTop_iff, ← fieldOp_toNat, ← fieldY_eq_zero_iff]
  constructor
  · rintro heq ⟨ht, ho, hy⟩
    have hlen : instrLen .m1y0 w = instrLen .m0y0 w := by
      rw [← length_encode_decodeWords .m1y0 true w 0, ← length_encode_decodeWords .m0y0 true w 0, heq]
      exact length_encode _ _ _
    rw [instrLen_alu _ ht ho, instrLen_alu _ ht ho, hy] at hlen
    cases hm : fieldM w <;> simp [hm, longSelected] at hlen
  · intro hc user imm
    by_cases ht : fieldTop w = true
    · by_cases ho : (fieldOp w).toNat ∈ [0, 1, 2, 4, 5, 6]
      · exact decodeWords_sel_of_opcode _ _ user imm ho
      · have hy : fieldY w ≠ 0 := fun hy => hc ⟨ht, ho, hy⟩
        exact decodeWords_congr_sel user imm ((longSelected_m1y0_eq_m0y0 _ _).2 hy)
    · simp [decodeWords, ht]

/-- The mode decides the name of every BRK word (R111). -/
theorem brkForm_user_ne_machine (x : BitVec 3) : brkForm true x ≠ brkForm false x := by
  by_cases hx : x = 0#3 <;> simp [brkForm, hx]

/-- Settles O5: the mode enters the decoding of a word only through the name of the BRK words. -/
theorem onlyBreakWordsDecodeByMode : Obligations.OnlyBreakWordsDecodeByMode := by
  intro sel w imm
  rw [← fieldH_eq_zero_iff, ← Nat.not_le, ← fieldTop_iff]
  by_cases ht : fieldTop w = true
  · simp [decodeWords, ht]
  · by_cases hh : fieldH w = 0#8
    · simp [decodeWords, ht, hh, brkForm_user_ne_machine]
    · simp [decodeWords, ht, hh]

/-- Settles O6: the table's words by evaluation. -/
theorem sampleWordsDecode : Obligations.SampleWordsDecode :=
  ⟨rfl, rfl, rfl, rfl, rfl, rfl, rfl, rfl, rfl, rfl, rfl⟩

end Sys2Proof
end

section
/-! The meaning of every instruction in the terms of the six operations that the families share: one table, so that a
statement about all instructions is a case split over six operations and not over the instructions. -/

namespace Sys2Proof.Machine

/-- A word computed from the general registers. -/
abbrev RegValue := (Reg → Word) → Word

/-- The operations that the families share, each with its operands. -/
inductive Action where
  /-- A BRK word with field X (R111). -/
  | breakWord (x : IrqNum)
  /-- A jump relative to the next instruction if register X is zero (R114). -/
  | jumpIfZero (x : Reg) (offset : Word)
  /-- A load of register X (R130, R131). -/
  | load (x : Reg) (address : RegValue) (len : Nat)
  /-- A store of register X (R132, R133). -/
  | store (x : Reg) (address : RegValue) (len : Nat)
  /-- A jump that leaves the next address in register X (R140, R141). -/
  | jumpAndLink (x : Reg) (target : RegValue) (len : Nat)
  /-- A write of a computed value to register X (R25). -/
  | writeBack (x : Reg) (value : RegValue) (len : Nat)

/-- The operation on the state. -/
def Action.run (k : Action) (s : State) : State :=
  match k with
  | .breakWord x => s.breakWord x
  | .jumpIfZero x d => if s.getReg x = 0x000 then s.jump (s.next 1 + d) else s.advance 1
  | .load x a len => s.load x (a s.getReg) (BitVec.ofNat 12 len)
  | .store x a len => s.store x (a s.getReg) (BitVec.ofNat 12 len)
  | .jumpAndLink x a len => s.jumpAndLink x (a s.getReg) (BitVec.ofNat 12 len)
  | .writeBack x v len => s.writeBack x (v s.getReg) (BitVec.ofNat 12 len)

/-- The operation of each instruction; `exec_eq_action` ties it to `exec`. -/
def actionOf (i : Instr) : Action :=
  match i with
  | .reu => .breakWord 0
  | .brk n => .breakWord n
  | .jru x => .breakWord x.bits
  | .jz x h => .jumpIfZero x (simm8 h)
  | .lwR x y => .load x (fun r => r y) 1
  | .lwA x y i => .load x (fun r => r y + i) 2
  | .swR x y => .store x (fun r => r y) 1
  | .swA x y i => .store x (fun r => r y + i) 2
  | .jrR x y => .jumpAndLink x (fun r => r y) 1
  | .jrA x y i => .jumpAndLink x (fun r => r y + i) 2
  | .mvR x y => .writeBack x (fun r => r y) 1
  | .mvS x y => .writeBack x (fun _ => simm3 y) 1
  | .mvL x i => .writeBack x (fun _ => i) 2
  | .lslR x y => .writeBack x (fun r => shiftLeft (r x) (shiftAmount (r y))) 1
  | .lslS x y => .writeBack x (fun r => shiftLeft (r x) (bimm3 y)) 1
  | .lsrR x y => .writeBack x (fun r => shiftRight (r x) (shiftAmount (r y))) 1
  | .lsrS x y => .writeBack x (fun r => shiftRight (r x) (bimm3 y)) 1
  | .asrR x y => .writeBack x (fun r => shiftRightArith (r x) (shiftAmount (r y))) 1
  | .asrS x y => .writeBack x (fun r => shiftRightArith (r x) (bimm3 y)) 1
  | .eqR x y => .writeBack x (fun r => truthWord (wordEq (r x) (r y))) 1
  | .eqS x y => .writeBack x (fun r => truthWord (wordEq (r x) (simm3 y))) 1
  | .eqL x i => .writeBack x (fun r => truthWord (wordEq (r x) i)) 2
  | .lrR x y => .writeBack x (fun r => truthWord (wordLess (r x) (r y))) 1
  | .lrS x y => .writeBack x (fun r => truthWord (wordLess (r x) (simm3 y))) 1
  | .lrL x i => .writeBack x (fun r => truthWord (wordLess (r x) i)) 2
  | .grR x y => .writeBack x (fun r => truthWord (wordGreater (r x) (r y))) 1
  | .grS x y => .writeBack x (fun r => truthWord (wordGreater (r x) (simm3 y))) 1
  | .grL x i => .writeBack x (fun r => truthWord (wordGreater (r x) i)) 2
  | .addR x y => .writeBack x (fun r => r x + r y) 1
  | .addS x y => .writeBack x (fun r => r x + uimm3 y) 1
  | .addL x i => .writeBack x (fun r => r x + i) 2
  | .subR x y => .writeBack x (fun r => r x - r y) 1
  | .subS x y => .writeBack x (fun r => r x - uimm3 y) 1
  | .subL x i => .writeBack x (fun r => r x - i) 2
  | .rsbR x y => .writeBack x (fun r => r y - r x) 1
  | .rsbS x y => .writeBack x (fun r => uimm3 y - r x) 1
  | .rsbL x i => .writeBack x (fun r => i - r x) 2
  | .andR x y => .writeBack x (fun r => r x &&& r y) 1
  | .andS x y => .writeBack x (fun r => r x &&& simm3 y) 1
  | .andL x i => .writeBack x (fun r => r x &&& i) 2
  | .orR x y => .writeBack x (fun r => r x ||| r y) 1
  | .orS x y => .writeBack x (fun r => r x ||| simm3 y) 1
  | .orL x i => .writeBack x (fun r => r x ||| i) 2
  | .xorR x y => .writeBack x (fun r => r x ^^^ r y) 1
  | .xorS x y => .writeBack x (fun r => r x ^^^ simm3 y) 1
  | .xorL x i => .writeBack x (fun r => r x ^^^ i) 2

/-- Every instruction answers a next state: the one its operation gives. -/
theorem exec_eq_action (i : Instr) (s : State) : exec i s = .next ((actionOf i).run s) := by
  cases i <;> rfl

/-- The same, for a state that an instruction answers. -/
theorem exec_eq_next_iff (i : Instr) (s t : State) : exec i s = .next t ↔ (actionOf i).run s = t := by
  rw [exec_eq_action, Host.Outcome.next.injEq]

/-- The whole effect of an instruction that writes a computed value back, the value given as any equal word. -/
theorem exec_writeBack {i : Instr} {x : Reg} {value : RegValue} {len : Nat} {v : Word}
    (hi : actionOf i = .writeBack x value len) (s : State) (hv : value s.getReg = v) :
    ∃ t, exec i s = .next t ∧ RegisterEffect s t x v len := by
  subst hv
  exact ⟨_, (exec_eq_action i s).trans (by rw [hi]; rfl), s.writeBack_effect x _ len⟩

/-- The same, with what is known of the value. -/
theorem exec_writeBack_value {i : Instr} {x : Reg} {value : RegValue} {len : Nat} {P : Word → Prop}
    (hi : actionOf i = .writeBack x value len) (s : State) (hv : P (value s.getReg)) :
    ∃ t v, exec i s = .next t ∧ P v ∧ RegisterEffect s t x v len := by
  obtain ⟨t, ht, he⟩ := exec_writeBack hi s rfl
  exact ⟨t, _, ht, hv, he⟩

/-! ### What the classes of instructions do -/

/-- The number of words after which an operation goes on, if it is no control transfer. -/
def Action.words (k : Action) : Option Nat :=
  match k with
  | .breakWord _ => none
  | .jumpIfZero _ _ => none
  | .load _ _ len => some len
  | .store _ _ len => some len
  | .jumpAndLink _ _ _ => none
  | .writeBack _ _ len => some len

theorem Action.run_pc_of_words {k : Action} {len : Nat} (h : k.words = some len) (s : State) :
    (k.run s).pc = s.next (BitVec.ofNat 12 len) := by
  cases k with
  | breakWord | jumpIfZero | jumpAndLink => cases h
  | load x a =>
    cases h
    simp [Action.run, State.load, State.afterMemRead, State.next]
  | store x a =>
    cases h
    rfl
  | writeBack x v =>
    cases h
    simp [Action.run, State.writeBack]

/-- An instruction that is no control transfer goes on after the words of its encoding. -/
theorem words_actionOf (sel : Imm12Select) {i : Instr} (h : isTransfer i = false) :
    (actionOf i).words = some (encode sel i).length := by
  cases i with
  | reu | brk | jru | jz | jrR | jrA => cases h
  | _ => rfl

/-- The names of the BRK words are the instructions that run a BRK word. -/
theorem isBreakName_iff (i : Instr) : isBreakName i = true ↔ ∃ x, actionOf i = .breakWord x := by
  cases i <;> simp [isBreakName, actionOf]

/-- An instruction with a destination writes a value back to it and goes on after its words. -/
theorem actionOf_of_aluDestination (sel : Imm12Select) {i : Instr} {x : Reg} (h : aluDestination i = some x) :
    ∃ v, actionOf i = .writeBack x v (encode sel i).length := by
  cases i with
  | reu | brk | jru | jz | jrR | jrA | lwR | lwA | swR | swA => cases h
  | _ => cases h; exact ⟨_, rfl⟩

end Sys2Proof.Machine
end

section
/-! The operands and the results as arithmetic (R89, R160, R170, R190, R210). -/

namespace Sys2Proof.Machine

theorem simm3_toInt (y : BitVec 3) : (simm3 y).toInt = y.toInt :=
  BitVec.toInt_signExtend_of_le (by omega)

theorem simm8_toInt (h : BitVec 8) : (simm8 h).toInt = h.toInt :=
  BitVec.toInt_signExtend_of_le (by omega)

theorem uimm3_toNat (y : BitVec 3) : (uimm3 y).toNat = y.toNat := by
  have := y.isLt
  simp only [uimm3, BitVec.toNat_setWidth]
  omega

/-- A word read as unsigned is its signed value modulo 4096 (D2). -/
theorem word_toNat_eq_toInt_emod (v : Word) : (v.toNat : Int) = v.toInt % 4096 := by
  have := v.isLt
  rw [BitVec.toInt_eq_toNat_cond]
  split <;> omega

/-- A short signed immediate read as an unsigned word (R89, D3). -/
theorem simm3_toNat (y : BitVec 3) : ((simm3 y).toNat : Int) = y.toInt % 4096 := by
  rw [word_toNat_eq_toInt_emod, simm3_toInt]

/-- Bits 2 to 11 of a short signed immediate are its sign bit (D2). -/
theorem simm3_getLsbD (y : BitVec 3) (k : Nat) (hk : k < 12) : (simm3 y).getLsbD k = y.getLsbD (min k 2) := by
  rw [simm3, BitVec.getLsbD_signExtend]
  by_cases h : k < 3
  · simp [hk, h, show min k 2 = k by omega]
  · simp [hk, h, show min k 2 = 2 by omega, BitVec.msb_eq_getLsbD_last]

/-- Subtraction is modulo 4096 (D4). -/
theorem word_sub_toNat (a b : Word) : ((a - b).toNat : Int) = ((a.toNat : Int) - b.toNat) % 4096 := by
  have := a.isLt
  have := b.isLt
  rw [BitVec.toNat_sub]
  omega

/-- An arithmetic right shift is the floor of the signed quotient by a power of two (R160, D2). -/
theorem shiftRightArith_toInt (v : Word) (n : Nat) : (shiftRightArith v n).toInt = v.toInt / 2 ^ n := by
  rw [shiftRightArith, BitVec.toInt_sshiftRight, Int.shiftRight_eq_div_pow]
  norm_cast

theorem truthWord_wordEq (a b : Word) : truthWord (wordEq a b) = if a = b then 0x001 else 0x000 := by
  simp [truthWord, wordEq]

/-- LR compares unsigned words (R170, D3). -/
theorem truthWord_wordLess (a b : Word) :
    truthWord (wordLess a b) = if a.toNat < b.toNat then 0x001 else 0x000 := by
  simp [truthWord, wordLess, Config.cmpSigned, BitVec.ult]

/-- GR compares unsigned words (R170, D3). -/
theorem truthWord_wordGreater (a b : Word) :
    truthWord (wordGreater a b) = if b.toNat < a.toNat then 0x001 else 0x000 :=
  truthWord_wordLess b a

/-- The target of a relative jump (R114, D2, D4). -/
theorem State.next_add_simm8_toNat (s : State) (h : BitVec 8) :
    ((s.next 1 + simm8 h).toNat : Int) = ((s.pc.toNat : Int) + 1 + h.toInt) % 4096 := by
  have hn := s.next_one_toNat
  have hs := word_toNat_eq_toInt_emod (simm8 h)
  rw [simm8_toInt] at hs
  rw [BitVec.toNat_add]
  omega

end Sys2Proof.Machine
end

section
/-! The instructions one by one: each form is its operation with its operand (spec/40_mode_control.md to
spec/47_logic.md). -/

namespace Sys2Proof.Machine

/-! ### Machine and user state control -/

/-- Settles O12: under each of its names the word is the BRK word with field X, which does what the mode and X
select. -/
theorem breakWordMeaningFollowsMode : Obligations.BreakWordMeaningFollowsMode := by
  intro x i s hi
  obtain ⟨hk, he, hc⟩ : actionOf i = .breakWord x.bits ∧ (∀ sel, encode sel i = [encodeB x.bits 0]) ∧
      clocks i = 2 := by
    rcases hi with rfl | rfl | ⟨rfl, rfl⟩ <;> exact ⟨rfl, fun _ => rfl, rfl⟩
  refine ⟨⟨s.breakWord x.bits, ?_, ?_, ?_, ?_⟩, encodedAs_of_encodeB i x.bits 0 he, hc⟩
  · rw [exec_eq_action, hk]
    rfl
  · intro hu
    rw [s.breakWord_user _ hu]
    exact ⟨s.next 1, s.next_one_toNat, s.takeBreak_effect _ _, rfl⟩
  · rintro hm rfl
    exact s.breakWord_machine_zero hm ▸ s.returnToUser_effect s.upc
  · intro hm hx
    rw [s.breakWord_machine x hm hx]
    exact s.returnToUser_effect _

theorem exec_jz (x : Reg) (h : BitVec 8) (s : State) :
    exec (.jz x h) s = .next (if s.getReg x = 0x000 then s.jump (s.next 1 + simm8 h) else s.advance 1) := rfl

theorem State.jump_onlyPcChanges (s : State) (a : Word) : OnlyPcChanges s (s.jump a) :=
  ⟨fun r => s.jump_getReg a r, ⟨rfl, rfl⟩, fun _ => rfl, ⟨rfl, rfl⟩, rfl, rfl⟩

theorem State.advance_onlyPcChanges (s : State) (len : Word) : OnlyPcChanges s (s.advance len) :=
  ⟨fun r => s.advance_getReg len r, ⟨rfl, rfl⟩, fun _ => rfl, ⟨rfl, rfl⟩, rfl, rfl⟩

/-- Settles O13: a taken JZ is the shared jump, one not taken the shared advance. -/
theorem jumpOnZeroTakenOrNot : Obligations.JumpOnZeroTakenOrNot := by
  intro x h s
  refine ⟨_, exec_jz x h s, ?_⟩
  by_cases hz : s.getReg x = 0x000
  · rw [if_pos hz, if_pos hz]
    exact ⟨s.jump_onlyPcChanges _, s.next_add_simm8_toNat h⟩
  · rw [if_neg hz, if_neg hz]
    refine ⟨s.advance_onlyPcChanges 1, ?_⟩
    rw [State.advance_pc, s.next_one_toNat]
    norm_cast

/-! ### The address forms -/

/-- An instruction of format A is the word `0x800 + OP + 0x100 * X + 0x010 * Y` and the immediate word (R84, R86). -/
theorem encodedAs_of_encodeA (i : Instr) (op : BitVec 4) (x y : Reg) (k : Word)
    (hi : ∀ sel, encode sel i = encodeA op x y k) :
    EncodedAs i (0x800 + op.toNat + 0x100 * x.bits.toNat + 0x010 * y.bits.toNat) [k] := by
  intro sel
  refine ⟨encodeOp x.bits false y.bits op, hi sel, ?_⟩
  rw [encodeOp_toNat, Bool.toNat_false]
  omega

/-- The effective address is the sum modulo 4096 (R59, D4). -/
theorem State.address_toNat (s : State) (y : Reg) (i : Word) :
    (s.address y i).toNat = ((s.getReg y).toNat + i.toNat) % 4096 :=
  BitVec.toNat_add _ _

/-- Settles O15: LW RX, RY, IMM12 is the shared load at the effective address, over two words. -/
theorem loadRegisterPlusImmediate : Obligations.LoadRegisterPlusImmediate := by
  intro x y i s
  refine ⟨⟨s.load x (s.address y i) 2, s.address y i, rfl, s.address_toNat y i, ?_⟩,
    encodedAs_of_encodeA _ 0 x y i fun _ => rfl⟩
  exact s.load_effect x (s.address y i) 2

/-- Settles O17: SW RX, RY, IMM12 is the shared store at the effective address, over two words. -/
theorem storeRegisterPlusImmediate : Obligations.StoreRegisterPlusImmediate := by
  intro x y i s
  refine ⟨⟨s.store x (s.address y i) 2, s.address y i, rfl, s.address_toNat y i, ?_⟩,
    encodedAs_of_encodeA _ 1 x y i fun _ => rfl⟩
  exact s.store_effect x (s.address y i) 2

/-- Settles O21: JR RX, RY, IMM12 is the shared jump and link to the effective address, over two words. -/
theorem jumpAndLinkRegisterPlusImmediate : Obligations.JumpAndLinkRegisterPlusImmediate := by
  intro x y i s
  refine ⟨⟨s.jumpAndLink x (s.address y i) 2, s.address y i, rfl, s.address_toNat y i, ?_⟩,
    encodedAs_of_encodeA _ 2 x y i fun _ => rfl⟩
  exact s.jumpAndLink_effect x (s.address y i) 2

/-! ### Register transfer, shifts and comparisons -/

/-- Settles O22: each form of MV writes its operand back. -/
theorem moveForms : Obligations.MoveForms := by
  refine ⟨fun x y s => exec_writeBack rfl s rfl, fun x y s => ?_, fun x i s => exec_writeBack rfl s rfl⟩
  exact exec_writeBack_value rfl s (simm3_toInt y)

/-- Settles O25: both forms of ASR write the floor of the signed quotient back, by the amount in register Y modulo 16 or
by the field's BIMM3 value. -/
theorem arithmeticShiftRight : Obligations.ArithmeticShiftRight := by
  refine ⟨fun x y s => exec_writeBack_value rfl s ?_, fun x y s => exec_writeBack_value rfl s ?_⟩
  · rw [shiftRightArith_toInt, shiftAmount_eq_mod]
  · rw [shiftRightArith_toInt, bimm3]

/-- Settles O26: EQ writes the truth of the equation back; a short immediate is equal as a word exactly when it is equal
as a signed number. -/
theorem equalForms : Obligations.EqualForms := by
  refine ⟨fun x y s => exec_writeBack rfl s ?_, fun x y s => exec_writeBack rfl s ?_,
    fun x i s => exec_writeBack rfl s ?_⟩
  · exact truthWord_wordEq _ _
  · simp only [truthWord_wordEq, ← simm3_toInt, BitVec.toInt_inj]
  · exact truthWord_wordEq _ _

/-- Settles O27: LR writes the truth of the unsigned comparison back, the short immediate sign-extended first. -/
theorem lessForms : Obligations.LessForms := by
  refine ⟨fun x y s => exec_writeBack rfl s ?_, fun x y s => exec_writeBack rfl s ?_,
    fun x i s => exec_writeBack rfl s ?_⟩
  · exact truthWord_wordLess _ _
  · simp only [truthWord_wordLess, ← simm3_toNat, Int.ofNat_lt]
  · exact truthWord_wordLess _ _

/-- Settles O28: GR writes the truth of the unsigned comparison back, the short immediate sign-extended first. -/
theorem greaterForms : Obligations.GreaterForms := by
  refine ⟨fun x y s => exec_writeBack rfl s ?_, fun x y s => exec_writeBack rfl s ?_,
    fun x i s => exec_writeBack rfl s ?_⟩
  · exact truthWord_wordGreater _ _
  · simp only [truthWord_wordGreater, ← simm3_toNat, Int.ofNat_lt]
  · exact truthWord_wordGreater _ _

/-! ### Arithmetic -/

/-- Settles O29: ADD writes the sum modulo 4096 back, the short immediate zero-extended. -/
theorem addForms : Obligations.AddForms := by
  refine ⟨fun x y s => exec_writeBack_value rfl s ?_, fun x y s => exec_writeBack_value rfl s ?_,
    fun x i s => exec_writeBack_value rfl s ?_⟩
  · exact BitVec.toNat_add _ _
  · rw [BitVec.toNat_add, uimm3_toNat]
  · exact BitVec.toNat_add _ _

/-- Settles O30: SUB writes the difference modulo 4096 back, the short immediate zero-extended. -/
theorem subtractForms : Obligations.SubtractForms := by
  refine ⟨fun x y s => exec_writeBack_value rfl s ?_, fun x y s => exec_writeBack_value rfl s ?_,
    fun x i s => exec_writeBack_value rfl s ?_⟩
  · exact word_sub_toNat _ _
  · rw [word_sub_toNat, uimm3_toNat]
  · exact word_sub_toNat _ _

/-- Settles O31: RSB writes the reverse difference modulo 4096 back, the short immediate zero-extended. -/
theorem reverseSubtractForms : Obligations.ReverseSubtractForms := by
  refine ⟨fun x y s => exec_writeBack_value rfl s ?_, fun x y s => exec_writeBack_value rfl s ?_,
    fun x i s => exec_writeBack_value rfl s ?_⟩
  · exact word_sub_toNat _ _
  · rw [word_sub_toNat, uimm3_toNat]
  · exact word_sub_toNat _ _

/-! ### Logic -/

/-- Settles O32: each bit of AND is the and of the operands' bits. -/
theorem andForms : Obligations.AndForms := by
  refine ⟨fun x y s => exec_writeBack_value rfl s fun k hk => ?_,
    fun x y s => exec_writeBack_value rfl s fun k hk => ?_, fun x i s => exec_writeBack_value rfl s fun k hk => ?_⟩
  · exact BitVec.getLsbD_and
  · rw [BitVec.getLsbD_and, simm3_getLsbD y k hk]
  · exact BitVec.getLsbD_and

/-- Settles O33: each bit of OR is the or of the operands' bits. -/
theorem orForms : Obligations.OrForms := by
  refine ⟨fun x y s => exec_writeBack_value rfl s fun k hk => ?_,
    fun x y s => exec_writeBack_value rfl s fun k hk => ?_, fun x i s => exec_writeBack_value rfl s fun k hk => ?_⟩
  · exact BitVec.getLsbD_or
  · rw [BitVec.getLsbD_or, simm3_getLsbD y k hk]
  · exact BitVec.getLsbD_or

/-- Settles O34: each bit of XOR is the exclusive or of the operands' bits. -/
theorem xorForms : Obligations.XorForms := by
  refine ⟨fun x y s => exec_writeBack_value rfl s fun k hk => ?_,
    fun x y s => exec_writeBack_value rfl s fun k hk => ?_, fun x i s => exec_writeBack_value rfl s fun k hk => ?_⟩
  · exact BitVec.getLsbD_xor
  · rw [BitVec.getLsbD_xor, simm3_getLsbD y k hk]
  · exact BitVec.getLsbD_xor

/-! ### Accesses one after the other, and the prefetch window -/

/-- A data read that reaches a memory cell delivers the cell's word (R56). -/
theorem State.memRead_cell {s : State} {a : Word} {n : Nat} (h : busTarget s.bus ⟨s.user, false, a⟩ = .cell n) :
    s.memRead a = s.cellWord n :=
  s.busAnswer_cell _ n h

/-- A store that reaches a memory cell leaves register X there. -/
theorem State.cellWord_store_same {s : State} {a : Word} {n : Nat} (x : Reg) (len : Word)
    (h : busTarget s.bus ⟨s.user, false, a⟩ = .cell n) : (s.store x a len).cellWord n = s.getReg x :=
  (s.store_cellWord x a len n).trans (s.cellWord_busWrite_same _ _ n h)

/-- A load leaves the word that was read in register X. -/
theorem State.load_holds (s : State) (x : Reg) (a len : Word) : Holds (s.load x a len) x (s.memRead a) := by
  simp [Holds, State.load]

/-- Settles O18: the store makes the cell hold the word, and the load's bus map, mode and address are still the ones
under which it reaches that cell (D9). -/
theorem loadSeesPrecedingStore : Obligations.LoadSeesPrecedingStore := by
  intro s x y z w n hy hw
  refine ⟨_, _, exec_swR x y s, exec_lwR z w _, ?_⟩
  have haddr : (s.store x (s.getReg y) 1).getReg w = s.getReg w := (s.store_effect x (s.getReg y) 1).1 w
  have hread : (s.store x (s.getReg y) 1).memRead (s.getReg w) = s.getReg x :=
    (State.memRead_cell (s := s.store x (s.getReg y) 1) hw).trans (State.cellWord_store_same x 1 hy)
  rw [haddr, ← hread]
  exact State.load_holds _ z _ 1

/-- A fetch's choice is among the words it may deliver (R64). -/
theorem pickWord_eq_or_mem (pick : Nat) (stored : Word) (old : List Word) :
    pickWord pick stored old = stored ∨ pickWord pick stored old ∈ old := by
  have hlt : pick % (old.length + 1) < (stored :: old).length := Nat.mod_lt _ (Nat.succ_pos _)
  rw [pickWord, List.getD_eq_getElem _ _ hlt]
  exact List.mem_cons.1 (List.getElem_mem hlt)

/-- A fetch delivers what the bus answers or a word of the prefetch window (R64). -/
theorem State.fetchWord_eq_or_mem (s : State) (a : Word) :
    s.fetchWord a = s.busAnswer (s.codeRequest a) ∨ s.fetchWord a ∈ s.staleWords a := by
  unfold State.fetchWord
  split
  · exact .inl rfl
  · exact pickWord_eq_or_mem _ _ _

/-- An older word that a fetch after a store may deliver, the window having been empty before it: the fetch is of one of
the two next addresses, and the word is the one the store replaced (R64). -/
theorem State.mem_staleWords_store {s : State} {x : Reg} {b len a v : Word} (hs : s.stale = []) {n : Nat}
    (hb : busTarget s.bus (s.dataRequest b) = .cell n) (hv : v ∈ (s.store x b len).staleWords a) :
    (a = s.next len ∨ a = s.next len + 1) ∧ v = s.cellWord n := by
  simp only [State.staleWords, State.store, State.overtaken, hb, State.memWrite, State.advance_stale,
    State.busWrite_stale, hs, List.filter_nil, List.nil_append] at hv
  simp only [List.mem_map, List.mem_filter, List.mem_cons, List.not_mem_nil, or_false, beq_iff_eq] at hv
  obtain ⟨-, ⟨⟨c, ⟨hc, -⟩, rfl⟩, rfl⟩, rfl⟩ := hv
  exact ⟨hc, rfl⟩

/-- The bus answers a code read of a cell that a store has just written with the stored word (R60). -/
theorem State.busAnswer_store_code {s : State} {b a : Word} {n : Nat} (x : Reg) (len : Word)
    (hb : busTarget s.bus ⟨s.user, false, b⟩ = .cell n) (ha : busTarget s.bus ⟨s.user, true, a⟩ = .cell n) :
    (s.store x b len).busAnswer ⟨s.user, true, a⟩ = s.getReg x :=
  ((s.store x b len).busAnswer_cell _ n ha).trans (State.cellWord_store_same x len hb)

/-- After a jump a fetch delivers what the bus answered before it (R64). -/
theorem State.fetchWord_jumpAndLink_cell {s : State} {a : Word} {n : Nat} (x : Reg) (target len : Word)
    (h : busTarget s.bus ⟨s.user, true, a⟩ = .cell n) :
    (s.jumpAndLink x target len).fetchWord a = s.cellWord n := by
  rw [State.fetchWord_cell _ a n rfl (by simpa [State.jumpAndLink, State.codeRequest] using h)]
  simp [State.jumpAndLink]

/-- Settles O19: the stored cell answers the fetch with the stored word; the window holds the replaced word, for the two
next addresses only, and a jump empties it. -/
theorem fetchAfterStoreIntoCode : Obligations.FetchAfterStoreIntoCode := by
  intro s t x y i a n hs ht hd hc
  obtain rfl : s.store x (s.address y i) 2 = t := (exec_eq_next_iff _ _ _).1 ht
  have hans := State.busAnswer_store_code x 2 hd hc
  refine ⟨?_, fun h0 h1 => ?_, fun z w u hu => ?_⟩
  · rcases State.fetchWord_eq_or_mem (s.store x (s.address y i) 2) a with h | h
    · exact .inl (h.trans hans)
    · exact .inr (State.mem_staleWords_store hs hd h).2
  · rcases State.fetchWord_eq_or_mem (s.store x (s.address y i) 2) a with h | h
    · exact h.trans hans
    · exact ((State.mem_staleWords_store hs hd h).1.elim h0 h1).elim
  · obtain rfl := (exec_eq_next_iff _ _ _).1 hu
    refine (State.fetchWord_jumpAndLink_cell (s := s.store x (s.address y i) 2) z _ 1 hc).trans ?_
    exact State.cellWord_store_same x 2 hd

/-! ### Doing nothing, and idioms -/

/-- A value written back to R0, or the value that the register holds, changes nothing but PC (R22, D5). -/
theorem RegisterEffect.onlyPcChanges {s t : State} {x : Reg} {v : Word} {len : Nat}
    (h : RegisterEffect s t x v len) (hx : x = .r0 ∨ v = s.getReg x) : OnlyPcChanges s t := by
  obtain ⟨hh, hbut, -, hmode, hcells, hin, hno⟩ := h
  refine ⟨fun r => ?_, hmode, hcells, hin, hno⟩
  by_cases hr : r = x
  · subst hr
    rw [hh]
    rcases hx with rfl | rfl
    · rfl
    · split
      · next h0 => rw [h0, State.getReg_r0]
      · rfl
  · exact hbut r hr

/-- An instruction that writes back to R0, or writes back what the register holds, changes nothing but PC, which goes on
after its words. -/
theorem exec_writeBack_onlyPcChanges {i : Instr} {x : Reg} {v : RegValue} {s : State}
    (hi : ∀ sel, actionOf i = .writeBack x v (encode sel i).length) (hx : x = .r0 ∨ v s.getReg = s.getReg x) :
    ∃ t, exec i s = .next t ∧ OnlyPcChanges s t ∧
      ∀ sel, t.pc.toNat = (s.pc.toNat + (encode sel i).length) % 4096 := by
  obtain ⟨t, ht, he⟩ := exec_writeBack (hi .m1y0) s rfl
  refine ⟨t, ht, he.onlyPcChanges hx, fun sel => ?_⟩
  obtain ⟨-, -, hpc, -⟩ := he
  rw [hpc, length_encode sel .m1y0]

/-- Settles O53: the instructions with destination R0 write nothing back, the neutral forms write back what the register
holds, and a JZ not taken is the shared advance. -/
theorem noOperationForms : Obligations.NoOperationForms := by
  rintro i x h s (hd | hm | ⟨rfl, hz⟩)
  · obtain ⟨v, hv⟩ := actionOf_of_aluDestination .m1y0 hd
    exact exec_writeBack_onlyPcChanges (fun sel => length_encode sel .m1y0 i ▸ hv) (.inl rfl)
  · simp only [List.mem_cons, List.not_mem_nil, or_false] at hm
    rcases hm with rfl | rfl | rfl | rfl
    · exact exec_writeBack_onlyPcChanges (fun _ => rfl) (.inr (BitVec.add_zero _))
    · exact exec_writeBack_onlyPcChanges (fun _ => rfl) (.inr (BitVec.sub_zero _))
    · exact exec_writeBack_onlyPcChanges (fun _ => rfl) (.inr BitVec.or_zero)
    · exact exec_writeBack_onlyPcChanges (fun _ => rfl) (.inr rfl)
  · refine ⟨s.advance 1, ?_, s.advance_onlyPcChanges 1, fun _ => s.next_one_toNat⟩
    rw [exec_jz, if_neg hz]

/-- The window apart, a jump to PC is no change (R302). -/
theorem State.jump_pc_self (s : State) : s.jump s.pc = { s with stale := [] } := rfl

/-- The complement of a word (R97, D2). -/
theorem xor_simm3_seven_toNat (v : Word) : (v ^^^ simm3 7).toNat = 4095 - v.toNat := by
  have h : simm3 7 = BitVec.allOnes 12 := by decide
  rw [h, BitVec.xor_allOnes, BitVec.toNat_not]

/-- Settles O54: JZ ZR is always taken; -1 complements by XOR and 0 - X negates by RSB; the link of JR is what JR ZR, AS
jumps to. -/
theorem idiomsDoWhatTheirNamesSay : Obligations.IdiomsDoWhatTheirNamesSay := by
  refine ⟨fun h s => ?_, fun s => ?_, fun x s => ?_, fun x s => ?_, fun a s => ?_⟩
  · exact ⟨_, rfl, s.jump_onlyPcChanges _, s.next_add_simm8_toNat h⟩
  · have hback : s.next 1 + simm8 0xFF = s.pc := by
      rw [show simm8 0xFF = -1 from by decide, State.next, ← sub_eq_add_neg, add_sub_cancel_right]
    rw [exec_jz, if_pos s.getReg_r0, hback, s.jump_pc_self]
  · exact exec_writeBack_value rfl s (xor_simm3_seven_toNat _)
  · refine exec_writeBack_value rfl s ?_
    rw [word_sub_toNat]
    simp [uimm3]
  · obtain ⟨⟨link, hlink, hheld⟩, -, hpc, -⟩ := s.jumpAndLink_effect .r1 (s.address .r0 a) 2
    refine ⟨_, rfl, hpc.trans (BitVec.zero_add a), fun b hb => ?_⟩
    obtain ⟨-, hregs, hpc', -, hcells, -⟩ := b.jumpAndLink_effect .r0 (b.getReg .r1) 1
    refine ⟨_, exec_jrR .r0 .r1 b, ?_, fun r => ?_, hcells⟩
    · rw [← hlink]
      exact congrArg BitVec.toNat ((hpc'.trans hb).trans hheld)
    · by_cases hr : r = .r0
      · rw [hr, State.getReg_r0, State.getReg_r0]
      · exact hregs r hr

end Sys2Proof.Machine
end

section
/-! The step (spec/60_exceptions.md, spec/20_memory.md): what the fetches leave alone, what a step can do, and what
every operation keeps. -/

namespace Sys2Proof.Machine

/-! ### The fetches leave everything but the record of the bus and the draws alone -/

section

variable (s : State)

@[simp] theorem State.afterInstrFetch_regs : s.afterInstrFetch.regs = s.regs := by
  obtain ⟨d, code, h, -⟩ := s.afterInstrFetch_effect
  rw [h]

@[simp] theorem State.afterInstrFetch_pc : s.afterInstrFetch.pc = s.pc := by
  obtain ⟨d, code, h, -⟩ := s.afterInstrFetch_effect
  rw [h]

@[simp] theorem State.afterInstrFetch_upc : s.afterInstrFetch.upc = s.upc := by
  obtain ⟨d, code, h, -⟩ := s.afterInstrFetch_effect
  rw [h]

@[simp] theorem State.afterInstrFetch_user : s.afterInstrFetch.user = s.user := by
  obtain ⟨d, code, h, -⟩ := s.afterInstrFetch_effect
  rw [h]

@[simp] theorem State.afterInstrFetch_mem : s.afterInstrFetch.mem = s.mem := by
  obtain ⟨d, code, h, -⟩ := s.afterInstrFetch_effect
  rw [h]

@[simp] theorem State.afterInstrFetch_bus : s.afterInstrFetch.bus = s.bus := by
  obtain ⟨d, code, h, -⟩ := s.afterInstrFetch_effect
  rw [h]

@[simp] theorem State.afterInstrFetch_irqInput : s.afterInstrFetch.irqInput = s.irqInput := by
  obtain ⟨d, code, h, -⟩ := s.afterInstrFetch_effect
  rw [h]

@[simp] theorem State.afterInstrFetch_stale : s.afterInstrFetch.stale = s.stale := by
  obtain ⟨d, code, h, -⟩ := s.afterInstrFetch_effect
  rw [h]

@[simp] theorem State.afterInstrFetch_getReg (r : Reg) : s.afterInstrFetch.getReg r = s.getReg r :=
  State.getReg_congr s.afterInstrFetch_regs r

@[simp] theorem State.afterInstrFetch_cellWord (n : Nat) : s.afterInstrFetch.cellWord n = s.cellWord n :=
  State.cellWord_congr s.afterInstrFetch_mem n

end

/-! ### What a step can do -/

/-- A boundary is a reset exactly with a reset request (R262). -/
theorem State.boundary_eq_reset (s : State) : s.boundary = .reset ↔ resetRequested s = true :=
  boundaryOf_eq_reset s.user (s.irqInput.headD 0)

theorem step_of_boundary_reset (s : State) (hb : s.boundary = .reset) : step s = .next s.passBoundary.takeReset := by
  simp only [step, hb]

/-- Where nothing displaces the instruction at PC, the step is its operation on the state after the fetches (R87). -/
theorem step_of_boundary_execute (s : State) (hb : s.boundary = .execute) :
    step s = .next ((actionOf s.passBoundary.fetchedInstr).run s.passBoundary.afterInstrFetch) := by
  rw [← exec_eq_action]
  simp only [step, hb]

/-- Everything a step can do: take a reset request, take a delivered interrupt in user mode, or run the operation of the
instruction at PC. -/
theorem step_cases {s t : State} (h : step s = .next t) :
    (resetRequested s = true ∧ t = s.passBoundary.takeReset) ∨
      (∃ n, s.user = true ∧ n ≠ 0 ∧ Delivered s n ∧ t = s.passBoundary.takeBreak n s.pc) ∨
      (resetRequested s = false ∧
        t = (actionOf s.passBoundary.fetchedInstr).run s.passBoundary.afterInstrFetch) := by
  cases hb : s.boundary with
  | reset =>
    rw [step_of_boundary_reset s hb] at h
    cases h
    exact .inl ⟨s.boundary_eq_reset.1 hb, rfl⟩
  | interrupt n =>
    rw [step_of_boundary_interrupt s n hb] at h
    cases h
    obtain ⟨hu, hn, hd⟩ := (s.boundary_eq_interrupt n).1 hb
    exact .inr (.inl ⟨n, hu, hn, hd, rfl⟩)
  | execute =>
    rw [step_of_boundary_execute s hb] at h
    cases h
    have hr : ¬ resetRequested s = true := fun hr => by simp [s.boundary_eq_reset.2 hr] at hb
    exact .inr (.inr ⟨Bool.not_eq_true _ ▸ hr, rfl⟩)

/-- In machine mode without a reset request nothing displaces the instruction (R259). -/
theorem State.boundary_machine {s : State} (hm : s.user = false) (hr : resetRequested s = false) :
    s.boundary = .execute := by
  rw [State.boundary, hm, boundaryOf_machine]
  exact if_neg (Bool.eq_false_iff.1 hr)

/-- Settles O36: each of the three boundaries answers a next state, and so does every instruction. -/
theorem everyStepAnswersNextState : Obligations.EveryStepAnswersNextState := by
  refine ⟨fun s => ?_, fun i s => ⟨_, exec_eq_action i s⟩⟩
  cases hb : s.boundary with
  | reset => exact ⟨_, step_of_boundary_reset s hb⟩
  | interrupt n => exact ⟨_, step_of_boundary_interrupt s n hb⟩
  | execute => exact ⟨_, step_of_boundary_execute s hb⟩

/-! ### What every operation keeps -/

/-- What a BRK word does: a trap in user mode, a return in machine mode (R111). -/
theorem State.breakWord_cases (s : State) (x : IrqNum) :
    (s.user = true ∧ s.breakWord x = s.takeBreak x (s.next 1)) ∨
      (s.user = false ∧ ∃ a, s.breakWord x = s.returnToUser a) := by
  cases hu : s.user with
  | true => exact .inl ⟨rfl, s.breakWord_user x hu⟩
  | false =>
    refine .inr ⟨rfl, ?_⟩
    by_cases hx : x = 0
    · exact ⟨_, hx ▸ s.breakWord_machine_zero hu⟩
    · have hr : Reg.ofBits x ≠ .r0 := fun h => hx ((Reg.ofBits_eq_r0 x).1 h)
      exact ⟨_, Reg.bits_ofBits x ▸ s.breakWord_machine (Reg.ofBits x) hu hr⟩

/-- A BRK word changes no memory cell and no wiring, and empties the prefetch window. -/
theorem State.breakWord_frame (s : State) (x : IrqNum) :
    (s.breakWord x).mem = s.mem ∧ (s.breakWord x).bus = s.bus ∧ (s.breakWord x).busLog = s.busLog ∧
      (s.breakWord x).stale = [] := by
  obtain ⟨-, h⟩ | ⟨-, a, h⟩ := s.breakWord_cases x <;> rw [h] <;> exact ⟨rfl, rfl, rfl, rfl⟩

/-- A JZ is a jump or goes on (R114). -/
theorem Action.run_jumpIfZero (x : Reg) (d : Word) (s : State) :
    (Action.jumpIfZero x d).run s = s.jump (s.next 1 + d) ∨ (Action.jumpIfZero x d).run s = s.advance 1 :=
  ite_eq_or_eq _ _ _

/-- Every other operation leaves UPC and the mode alone (R28, R30). -/
theorem Action.run_sameMode (k : Action) (s : State) (hk : ∀ x, k ≠ .breakWord x) : SameMode s (k.run s) := by
  cases k with
  | breakWord x => exact absurd rfl (hk x)
  | jumpIfZero x d => rcases run_jumpIfZero x d s with h | h <;> rw [h] <;> exact ⟨rfl, rfl⟩
  | load x a len =>
    obtain ⟨-, -, -, -, hmode, -⟩ := s.load_effect x (a s.getReg) len
    exact hmode
  | store x a len => exact ⟨rfl, rfl⟩
  | jumpAndLink x a len =>
    obtain ⟨-, -, -, hmode, -⟩ := s.jumpAndLink_effect x (a s.getReg) len
    exact hmode
  | writeBack x v len =>
    obtain ⟨-, -, -, hmode, -⟩ := s.writeBack_effect x (v s.getReg) len
    exact hmode

/-- No operation changes the wiring (R56). -/
theorem Action.run_bus (k : Action) (s : State) : (k.run s).bus = s.bus := by
  cases k with
  | breakWord x =>
    obtain ⟨-, hbus, -⟩ := s.breakWord_frame x
    exact hbus
  | jumpIfZero x d => rcases run_jumpIfZero x d s with h | h <;> rw [h] <;> rfl
  | load x a len =>
    obtain ⟨-, -, -, -, -, -, ⟨hbus, -⟩, -⟩ := s.load_effect x (a s.getReg) len
    exact hbus
  | store x a len => rfl
  | jumpAndLink x a len =>
    obtain ⟨-, -, -, -, -, ⟨hbus, -⟩, -⟩ := s.jumpAndLink_effect x (a s.getReg) len
    exact hbus
  | writeBack x v len =>
    obtain ⟨-, -, -, -, -, ⟨hbus, -⟩, -⟩ := s.writeBack_effect x (v s.getReg) len
    exact hbus

/-- An operation changes a memory cell only if a data request of the current mode reaches it (R53). -/
theorem Action.run_cellWord (k : Action) (s : State) (n : Nat)
    (h : ∀ a, busTarget s.bus ⟨s.user, false, a⟩ ≠ .cell n) : (k.run s).cellWord n = s.cellWord n := by
  cases k with
  | breakWord x =>
    obtain ⟨hmem, -⟩ := s.breakWord_frame x
    exact State.cellWord_congr hmem n
  | jumpIfZero x d => rcases run_jumpIfZero x d s with h | h <;> rw [h] <;> rfl
  | load x a len =>
    obtain ⟨-, -, -, -, -, hcells, -⟩ := s.load_effect x (a s.getReg) len
    exact hcells n
  | store x a len => exact s.cellWord_busWrite_other _ _ n (h _)
  | jumpAndLink x a len =>
    obtain ⟨-, -, -, -, hcells, -⟩ := s.jumpAndLink_effect x (a s.getReg) len
    exact hcells n
  | writeBack x v len =>
    obtain ⟨-, -, -, -, hcells, -⟩ := s.writeBack_effect x (v s.getReg) len
    exact hcells n

/-- An operation makes at most one transfer, a data access in the current mode (R53). -/
theorem Action.run_busLog (k : Action) (s : State) :
    ∃ data, (k.run s).busLog = data ++ s.busLog ∧ data.length ≤ 1 ∧
      ∀ e ∈ data, e.request.user = s.user ∧ e.request.code = false := by
  cases k with
  | breakWord x =>
    obtain ⟨-, -, hlog, -⟩ := s.breakWord_frame x
    exact ⟨[], hlog, by simp, by simp⟩
  | jumpIfZero x d =>
    refine ⟨[], ?_, by simp, by simp⟩
    rcases run_jumpIfZero x d s with h | h <;> rw [h] <;> rfl
  | load x a len =>
    obtain ⟨v, -, -, -, -, -, -, hlog, -⟩ := s.load_effect x (a s.getReg) len
    exact ⟨[⟨⟨s.user, false, a s.getReg⟩, false, v⟩], hlog, by simp, by simp⟩
  | store x a len => exact ⟨[⟨⟨s.user, false, a s.getReg⟩, true, s.getReg x⟩], rfl, by simp, by simp⟩
  | jumpAndLink x a len =>
    obtain ⟨-, -, -, -, -, -, hlog, -⟩ := s.jumpAndLink_effect x (a s.getReg) len
    exact ⟨[], hlog, by simp, by simp⟩
  | writeBack x v len =>
    obtain ⟨-, -, -, -, -, -, hlog, -⟩ := s.writeBack_effect x (v s.getReg) len
    exact ⟨[], hlog, by simp, by simp⟩

/-! ### The invariant -/

/-- The invariant is about the memory, the window, PC, the wiring and the mode. -/
theorem Inv.congr {s t : State} (h : Inv s) (hmem : t.mem = s.mem) (hstale : t.stale = s.stale) (hpc : t.pc = s.pc)
    (hbus : t.bus = s.bus) (huser : t.user = s.user) : Inv t := by
  unfold Inv
  rw [hmem, hstale, hpc, hbus, huser]
  exact h

theorem inv_of_empty_window {s : State} (hmem : s.mem.wf) (hstale : s.stale = []) : Inv s :=
  ⟨hmem, by simp [hstale]⟩

theorem Inv.setReg {s : State} (h : Inv s) (x : Reg) (v : Word) : Inv (s.setReg x v) :=
  h.congr (by simp) (by simp) (by simp) (by simp) (by simp)

theorem Inv.busWrite {s : State} (h : Inv s) (q : BusRequest) (v : Word) : Inv (s.busWrite q v) :=
  ⟨s.wf_busWrite q v h.1, h.2⟩

/-- Going on keeps the word of the next address only, which stays within the next two (R64). -/
theorem Inv.advance {s : State} (h : Inv s) (len : Word) : Inv (s.advance len) := by
  obtain ⟨hmem, hwin⟩ := h
  refine ⟨hmem, fun e he => ?_⟩
  obtain ⟨he, hpc⟩ := List.mem_filter.1 he
  exact ⟨.inl (beq_iff_eq.1 hpc), (hwin e he).2⟩

/-- The words that a store adds to the window are of the two next addresses, each fetched from a memory cell (R64). -/
theorem State.overtaken_spec (s : State) {q : BusRequest} {next : Word} {e : Word × Word}
    (he : e ∈ s.overtaken q next) :
    (e.1 = next ∨ e.1 = next + 1) ∧ ∃ n, busTarget s.bus ⟨s.user, true, e.1⟩ = .cell n := by
  unfold State.overtaken at he
  split at he
  · next n _ =>
    obtain ⟨a, ha, rfl⟩ := List.mem_map.1 he
    obtain ⟨ha, htarget⟩ := List.mem_filter.1 ha
    exact ⟨by simpa using ha, n, beq_iff_eq.1 htarget⟩
  · cases he
  · cases he

theorem Inv.store {s : State} (h : Inv s) (x : Reg) (a len : Word) : Inv (s.store x a len) := by
  obtain ⟨hmem, hwin⟩ := (h.busWrite (s.dataRequest a) (s.getReg x)).advance len
  refine ⟨hmem, fun e he => ?_⟩
  rcases List.mem_append.1 he with he | he
  · exact hwin e he
  · exact s.overtaken_spec he

/-- Every operation keeps the invariant: a transfer empties the window, the others keep or open it as R64 says. -/
theorem Inv.run {s : State} (h : Inv s) (k : Action) : Inv (k.run s) := by
  cases k with
  | breakWord x =>
    obtain ⟨hmem, -, -, hstale⟩ := s.breakWord_frame x
    exact inv_of_empty_window (show (s.breakWord x).mem.wf by rw [hmem]; exact h.1) hstale
  | jumpIfZero x d =>
    rcases Action.run_jumpIfZero x d s with hrun | hrun <;> rw [hrun]
    · exact inv_of_empty_window h.1 rfl
    · exact h.advance 1
  | load x a len =>
    have hread : Inv (s.afterMemRead (a s.getReg)) := h.congr rfl rfl rfl rfl rfl
    exact (hread.setReg x _).advance _
  | store x a len => exact h.store x _ _
  | jumpAndLink x a len => exact inv_of_empty_window (h.setReg x _).1 rfl
  | writeBack x v len => exact (h.setReg x _).advance _

/-- Settles O9: reset and traps leave an empty window and a canonical memory; the fetches change nothing that the invariant
is about, and every operation keeps it. -/
theorem invariantKeptByEveryStep : Obligations.InvariantKeptByEveryStep := by
  intro s t hi h
  obtain ⟨-, rfl⟩ | ⟨n, -, -, -, rfl⟩ | ⟨-, rfl⟩ := step_cases h
  · exact inv_of_empty_window (Memory.wf_ofWrites _) rfl
  · exact inv_of_empty_window hi.1 rfl
  · exact Inv.run (hi.congr (by simp) (by simp) (by simp) (by simp) (by simp)) _

/-- Settles O7: the reset state by its fields. -/
theorem resetStateMeetsInvariant : Obligations.ResetStateMeetsInvariant :=
  ⟨rfl, rfl, rfl, inv_of_empty_window State.reset_wf rfl⟩

/-- Settles O10: a reset request makes the boundary a reset, whose effect is the shared one. -/
theorem resetRequestTakenInEitherMode : Obligations.ResetRequestTakenInEitherMode := by
  intro s hr
  obtain ⟨hpc, huser, hmem, hstale, hbus, hirq, hlog⟩ := s.passBoundary.takeReset_effect
  exact ⟨_, step_of_boundary_reset s (s.boundary_eq_reset.2 hr), hpc, huser, rfl, hlog, hbus, hirq, hmem, hstale⟩

/-! ### PC, the mode and UPC -/

/-- Settles O37: an operation that is no transfer advances PC by the words of the encoding. -/
theorem sequentialInstructionsAdvancePc : Obligations.SequentialInstructionsAdvancePc := by
  intro sel i s t hi h
  obtain rfl := (exec_eq_next_iff i s t).1 h
  rw [Action.run_pc_of_words (words_actionOf sel hi), s.next_toNat]

/-- The data accesses are the instructions that run a load or a store. -/
theorem isDataAccess_iff (i : Instr) : isDataAccess i = true ↔
    (∃ x a len, actionOf i = .load x a len) ∨ ∃ x a len, actionOf i = .store x a len := by
  cases i <;> simp [isDataAccess, actionOf]

theorem State.getReg_withUser (s : State) (u : Bool) : ({ s with user := u } : State).getReg = s.getReg :=
  funext fun r => State.getReg_congr rfl r

theorem State.setReg_withUser (s : State) (u : Bool) (x : Reg) (v : Word) :
    ({ s with user := u } : State).setReg x v = { s.setReg x v with user := u } := by
  cases x <;> rfl

/-- The operations other than a BRK word, a load and a store do not look at the mode (R253). -/
theorem Action.run_withUser (k : Action) (s : State) (u : Bool) (hb : ∀ x, k ≠ .breakWord x)
    (hl : ∀ x a len, k ≠ .load x a len) (hs : ∀ x a len, k ≠ .store x a len) :
    k.run { s with user := u } = { k.run s with user := u } := by
  cases k with
  | breakWord x => exact absurd rfl (hb x)
  | jumpIfZero x d =>
    simp only [Action.run, State.getReg_withUser]
    split <;> rfl
  | load x a len => exact absurd rfl (hl x a len)
  | store x a len => exact absurd rfl (hs x a len)
  | jumpAndLink x a len =>
    simp only [Action.run, State.jumpAndLink, State.getReg_withUser, State.setReg_withUser]
    rfl
  | writeBack x v len =>
    simp only [Action.run, State.writeBack, State.getReg_withUser, State.setReg_withUser]
    rfl

/-- Settles O38: the operation is one of the three that do not look at the mode, and none of them changes it. -/
theorem modeDoesNotChangeOtherInstructions : Obligations.ModeDoesNotChangeOtherInstructions := by
  intro i s t hb hd h
  obtain rfl := (exec_eq_next_iff i s t).1 h
  have hb : ∀ x, actionOf i ≠ .breakWord x := fun x hx => by simp [(isBreakName_iff i).2 ⟨x, hx⟩] at hb
  have hl : ∀ x a len, actionOf i ≠ .load x a len := fun x a len hx => by
    simp [(isDataAccess_iff i).2 (.inl ⟨x, a, len, hx⟩)] at hd
  have hs : ∀ x a len, actionOf i ≠ .store x a len := fun x a len hx => by
    simp [(isDataAccess_iff i).2 (.inr ⟨x, a, len, hx⟩)] at hd
  rw [exec_eq_next_iff, Action.run_withUser _ s _ hb hl hs, (Action.run_sameMode _ s hb).2]

/-- In machine mode no operation writes UPC (R28, D14). -/
theorem Action.run_upc_machine (k : Action) (s : State) (hm : s.user = false) : (k.run s).upc = s.upc := by
  by_cases hk : ∃ x, k = .breakWord x
  · obtain ⟨x, rfl⟩ := hk
    obtain ⟨hu, -⟩ | ⟨-, a, h⟩ := s.breakWord_cases x
    · simp [hm] at hu
    · exact (congrArg State.upc h).trans (s.returnToUser_upc a)
  · exact (k.run_sameMode s (not_exists.1 hk)).1

/-- Settles O40: the boundary in machine mode looks at the reset request only, and the operation that then runs does not
write UPC. -/
theorem machineModeMasksInterrupts : Obligations.MachineModeMasksInterrupts := by
  intro s t l rest hm hirq
  constructor
  · have hb : ({ s with irqInput := (l &&& 1) :: rest } : State).boundary = s.boundary := by
      simp [State.boundary, hm, hirq, boundaryOf_machine]
    have hpass : ({ s with irqInput := (l &&& 1) :: rest } : State).passBoundary = s.passBoundary := by
      simp [State.passBoundary, hirq]
    simp only [step, hb, hpass]
  · intro hl h
    have hr : resetRequested s = false := by simpa [resetRequested, hirq] using hl
    rw [step_of_boundary_execute s (State.boundary_machine hm hr)] at h
    cases h
    rw [Action.run_upc_machine _ _ (by simpa using hm)]
    simp

/-- Settles O42: an interrupt is taken from user mode to machine mode, and of the operations only a BRK word in user
mode writes UPC, on the same way. -/
theorem upcWrittenOnlyOnEntryFromUserMode : Obligations.UpcWrittenOnlyOnEntryFromUserMode := by
  intro s t h hne
  obtain ⟨hr, -⟩ | ⟨n, hu, -, -, rfl⟩ | ⟨-, rfl⟩ := step_cases h
  · exact .inl hr
  · exact .inr ⟨hu, rfl⟩
  · right
    cases hu : s.user with
    | false =>
      rw [Action.run_upc_machine _ _ (by simpa using hu)] at hne
      simp at hne
    | true =>
      refine ⟨rfl, ?_⟩
      by_cases hk : ∃ x, actionOf s.passBoundary.fetchedInstr = .breakWord x
      · obtain ⟨x, hx⟩ := hk
        rw [hx]
        exact congrArg State.user (State.breakWord_user _ x (by simpa using hu))
      · rw [(Action.run_sameMode _ _ (not_exists.1 hk)).1] at hne
        simp at hne

/-- Settles O43: the three things a step can do, and of the operations only a BRK word changes the mode. -/
theorem modeChangedOnlyByBreakInterruptReset : Obligations.ModeChangedOnlyByBreakInterruptReset := by
  intro s t h hne
  obtain ⟨hr, rfl⟩ | ⟨n, hu, hn, hd, rfl⟩ | ⟨hr, rfl⟩ := step_cases h
  · exact ⟨fun _ => .inl hr, fun hm => absurd hm.symm hne⟩
  · exact ⟨fun _ => .inr (.inl ⟨n, hn, hd⟩), fun hm => by simp [hu] at hm⟩
  · have hb : isBreakName s.passBoundary.fetchedInstr = true := by
      by_contra hb
      have hk := not_exists.1 fun hx => hb ((isBreakName_iff _).2 hx)
      exact hne ((Action.run_sameMode _ _ hk).2.trans (by simp))
    exact ⟨fun _ => .inr (.inr hb), fun _ => ⟨hb, hr⟩⟩

/-- The step that runs a BRK word in machine mode without a reset request: the return, on the state after the fetch. -/
theorem step_breakWord_machine {s : State} {x : IrqNum} (hm : s.user = false) (hr : resetRequested s = false)
    (hx : actionOf s.passBoundary.fetchedInstr = .breakWord x) :
    step s = .next (s.passBoundary.afterInstrFetch.breakWord x) := by
  rw [step_of_boundary_execute s (State.boundary_machine hm hr), hx]
  rfl

/-- Settles O41: the return leaves the next boundary's input and user mode, so the second step is the interrupt's entry
from the target. -/
theorem requestTakenRightAfterReturn : Obligations.RequestTakenRightAfterReturn := by
  intro s i x l k rest n target hm hirq hl hi htarget hn hk hmin
  have hr : resetRequested s = false := by simpa [resetRequested, hirq] using hl
  have hf : s.passBoundary.afterInstrFetch.user = false := by simpa using hm
  have hstep : step s = .next (s.passBoundary.afterInstrFetch.returnToUser target) := by
    rcases htarget with ⟨rfl, rfl⟩ | ⟨rfl, hx, rfl⟩
    · rw [step_breakWord_machine hm hr (by rw [hi]; rfl), State.breakWord_machine_zero _ hf]
      simp
    · rw [step_breakWord_machine hm hr (by rw [hi]; rfl), State.breakWord_machine _ x hf hx]
      simp
  refine ⟨_, _, hstep, rfl, rfl, step_of_boundary_interrupt _ n ?_, ?_, fun r => ?_, fun c => ?_, ?_⟩
  · rw [State.boundary_eq_interrupt]
    refine ⟨rfl, hn, ?_⟩
    simp only [Delivered, State.returnToUser_irqInput, State.afterInstrFetch_irqInput, State.passBoundary_irqInput,
      hirq, List.tail_cons, List.headD_cons]
    exact ⟨hk, hmin⟩
  · exact (trapEffect_passBoundary _ _ n target).1 (State.takeBreak_effect _ n target)
  · simp
  · simp
  · simp [hirq]

/-! ### The bus -/

/-- Settles O44: reset and traps transfer nothing; otherwise the code reads of the fetch come first and the operation's
data access, if any, after them. -/
theorem stepTransfersInOrder : Obligations.StepTransfersInOrder := by
  intro s t h
  obtain ⟨-, rfl⟩ | ⟨n, -, -, -, rfl⟩ | ⟨-, rfl⟩ := step_cases h
  · exact ⟨[], [], rfl, by simp, by simp, by simp, by simp⟩
  · exact ⟨[], [], rfl, by simp, by simp, by simp, by simp⟩
  · obtain ⟨d, code, hf, hcode, haddr⟩ := s.passBoundary.afterInstrFetch_effect
    obtain ⟨data, hlog, hlen, hdata⟩ :=
      (actionOf s.passBoundary.fetchedInstr).run_busLog s.passBoundary.afterInstrFetch
    refine ⟨data, code, ?_, hlen, ?_, hcode, List.mem_cons_of_mem _ haddr⟩
    · rw [hlog, hf, List.append_assoc]
      rfl
    · simpa using hdata

/-- Of the code reads of a fetch the oldest, the last of the list, is that of PC (R66). -/
theorem oldest_code_read {user : Bool} {pc : Word} {code : List BusAccess}
    (hcode : ∀ e ∈ code, e.request.user = user ∧ e.request.code = true ∧ e.write = false)
    (haddr : (code.map fun e => e.request.addr) ∈ [[pc], [pc + 1, pc]]) :
    ∃ new w, code = new ++ [⟨⟨user, true, pc⟩, false, w⟩] := by
  have key : ∀ e ∈ code, e.request.addr = pc → e = ⟨⟨user, true, pc⟩, false, e.data⟩ := by
    rintro ⟨⟨_, _, _⟩, _, _⟩ he rfl
    obtain ⟨rfl, rfl, rfl⟩ := hcode _ he
    rfl
  simp only [List.mem_cons, List.not_mem_nil, or_false] at haddr
  rcases haddr with haddr | haddr
  · obtain ⟨e, rfl, he⟩ := List.map_eq_singleton_iff.1 haddr
    exact ⟨[], e.data, by rw [List.nil_append, ← key e (by simp) he]⟩
  · obtain ⟨e', _, rfl, -, haddr⟩ := List.map_eq_cons_iff.1 haddr
    obtain ⟨e, rfl, he⟩ := List.map_eq_singleton_iff.1 haddr
    exact ⟨[e'], e.data, by rw [List.singleton_append, ← key e (by simp) he]⟩

/-- Settles O8: the reset state executes, and the oldest transfer of a fetch is the code read at PC. -/
theorem resetStartsWithFetchFromZero : Obligations.ResetStartsWithFetchFromZero := by
  have hb : State.reset.boundary = .execute := State.boundary_machine rfl rfl
  obtain ⟨d, code, hf, hcode, haddr⟩ := State.reset.passBoundary.afterInstrFetch_effect
  obtain ⟨data, hlog, -⟩ :=
    (actionOf State.reset.passBoundary.fetchedInstr).run_busLog State.reset.passBoundary.afterInstrFetch
  obtain ⟨new, w, hlast⟩ := oldest_code_read hcode haddr
  refine ⟨_, data ++ new, w, step_of_boundary_execute _ hb, ?_⟩
  rw [hlog, hf, hlast]
  simp [State.reset]

/-- Settles O45: nothing but an operation changes a cell in user mode, and it reaches only what the mode's data requests
reach. -/
theorem userModeWritesOnlyItsDataCells : Obligations.UserModeWritesOnlyItsDataCells := by
  intro s t n hu hr hn h
  obtain ⟨hr', -⟩ | ⟨k, -, -, -, rfl⟩ | ⟨-, rfl⟩ := step_cases h
  · simp [hr] at hr'
  · rfl
  · rw [Action.run_cellWord _ _ n (by simpa [hu] using hn)]
    simp

end Sys2Proof.Machine
end

section
/-! The step and the decoder (R87): a step runs the instruction whose words the fetch delivers. -/

namespace Sys2Proof.Machine

/-- The machine reads a well-formed instruction of its mode from the instruction's words. -/
theorem instrOf_encode {user : Bool} {i : Instr} (hw : i.wellFormed Config.imm12Select = true)
    (hn : i.namedIn user = true) : instrOf user (encode Config.imm12Select i) = i := by
  have h := decode_encode [] hw hn
  rw [List.append_nil] at h
  rw [instrOf, h]

/-- Without a reset request, and in user mode without any, the instruction at PC executes (R256, R259). -/
theorem State.boundary_execute {s : State} (hr : resetRequested s = false)
    (hq : s.user = true → s.irqInput.headD 0 = 0) : s.boundary = .execute := by
  cases hu : s.user with
  | false => exact State.boundary_machine hu hr
  | true =>
    rw [State.boundary, hq hu, hu]
    decide

/-- The step runs the instruction whose encoding the fetch delivers. -/
theorem step_of_fetchedWords {i : Instr} {s : State} (hw : i.wellFormed Config.imm12Select = true)
    (hn : i.namedIn s.user = true) (hb : s.boundary = .execute)
    (hf : s.passBoundary.fetchedWords = encode Config.imm12Select i) :
    step s = exec i s.passBoundary.afterInstrFetch := by
  have hi : s.passBoundary.fetchedInstr = i := by
    rw [State.fetchedInstr, hf, State.passBoundary_user, instrOf_encode hw hn]
  simp only [step, hb, hi]

/-- The record of the code reads of an instruction's words from PC on, the latest first (R66). -/
def codeReads (s : State) (ws : List Word) : List BusAccess :=
  (ws.zipIdx.map fun e => ⟨⟨s.user, true, s.pc + BitVec.ofNat 12 e.2⟩, false, e.1⟩).reverse

/-- The fetch of a one-word instruction from a memory cell, with an empty prefetch window. -/
theorem State.fetch_one {s : State} {w : Word} {n : Nat} (hs : s.stale = [])
    (hl : instrLen Config.imm12Select w = 1) (ht : busTarget s.bus ⟨s.user, true, s.pc⟩ = .cell n)
    (hw : s.cellWord n = w) :
    s.fetchedWords = [w] ∧ s.afterInstrFetch = { s with busLog := codeReads s [w] ++ s.busLog } := by
  have hf : s.fetchWord s.pc = w := (s.fetchWord_cell s.pc n hs ht).trans hw
  simp only [State.fetchedWords, State.afterInstrFetch, hf, hl, if_true, true_and]
  rw [s.afterFetch_cell s.pc n hs ht, hw]
  simp [codeReads, State.codeRequest]

/-- The fetch of a two-word instruction from memory cells, with an empty prefetch window. -/
theorem State.fetch_two {s : State} {w imm : Word} {m n : Nat} (hs : s.stale = [])
    (hl : instrLen Config.imm12Select w = 2) (ht : busTarget s.bus ⟨s.user, true, s.pc⟩ = .cell m)
    (hw : s.cellWord m = w) (ht' : busTarget s.bus ⟨s.user, true, s.pc + 1⟩ = .cell n) (hi : s.cellWord n = imm) :
    s.fetchedWords = [w, imm] ∧ s.afterInstrFetch = { s with busLog := codeReads s [w, imm] ++ s.busLog } := by
  have hf : s.fetchWord s.pc = w := (s.fetchWord_cell s.pc m hs ht).trans hw
  have ha := s.afterFetch_cell s.pc m hs ht
  have hf' : (s.afterFetch s.pc).fetchWord (s.pc + 1) = imm := by
    rw [ha]
    exact Eq.trans (State.fetchWord_cell _ _ n hs ht') hi
  have hl' : ¬ instrLen Config.imm12Select w = 1 := by omega
  simp only [State.fetchedWords, State.afterInstrFetch, hf, hf', if_neg hl', true_and]
  rw [ha, hw]
  refine Eq.trans (State.afterFetch_cell _ _ n hs ht') ?_
  simp [codeReads, State.codeRequest, State.cellWord, ← hi]

/-- Settles O35: the fetched words decode to the instruction (O1); from memory cells, with an empty window, the fetch
delivers the cells' words and records its code reads. -/
theorem stepRunsDecodedInstruction : Obligations.StepRunsDecodedInstruction := by
  intro i s hw hn hr hq
  have hb := State.boundary_execute hr hq
  refine ⟨step_of_fetchedWords hw hn hb, fun hs hcells => ?_⟩
  have hfetch : s.passBoundary.fetchedWords = encode Config.imm12Select i ∧
      s.passBoundary.afterInstrFetch = { s.passBoundary with
        busLog := codeReads s.passBoundary (encode Config.imm12Select i) ++ s.passBoundary.busLog } := by
    obtain ⟨w, he, hl⟩ | ⟨w, imm, he, hl⟩ := encode_eq_one_or_two _ i hw <;> rw [he] at hcells ⊢
    · obtain ⟨m, ht, hm⟩ := hcells 0 w rfl
      rw [BitVec.add_zero] at ht
      exact State.fetch_one hs hl ht hm
    · obtain ⟨m, ht, hm⟩ := hcells 0 w rfl
      rw [BitVec.add_zero] at ht
      obtain ⟨n, ht', hn'⟩ := hcells 1 imm rfl
      exact State.fetch_two hs hl ht hm ht' hn'
  rw [step_of_fetchedWords hw hn hb hfetch.1, hfetch.2]
  rfl

end Sys2Proof.Machine
end

section
/-! What user mode can learn (R58): two states that differ only in memory cells that no user-mode request reaches go
through the same fetch and the same operation, and differ in such cells only afterwards. -/

namespace Sys2Proof.Machine

/-- The state with another memory behind the bus. -/
def State.withMem (s : State) (m : Memory) : State := { s with mem := m }

/-- The memory `m` differs from the state's in cells only that no user-mode request reaches. -/
def LooksAlike (s : State) (m : Memory) : Prop :=
  ∀ n, ¬ hiddenFromUser s.bus n → (s.withMem m).cellWord n = s.cellWord n

section

variable {s : State} {m : Memory}

/-- Only the wiring and the memory matter to it. -/
theorem LooksAlike.congr (h : LooksAlike s m) {t : State} (hbus : t.bus = s.bus) (hmem : t.mem = s.mem) :
    LooksAlike t m := by
  intro n hn
  rw [hbus] at hn
  rw [State.cellWord_congr hmem n]
  exact h n hn

/-- A cell that a user-mode request reaches holds the same word in both memories. -/
theorem LooksAlike.cellWord (h : LooksAlike s m) {q : BusRequest} (hq : q.user = true) {n : Nat}
    (ht : busTarget s.bus q = .cell n) : (s.withMem m).cellWord n = s.cellWord n := by
  refine h n fun hn => hn q.code q.addr ?_
  rw [← hq]
  exact ht

/-- A user-mode request is answered alike. -/
theorem LooksAlike.busAnswer (h : LooksAlike s m) {q : BusRequest} (hq : q.user = true) :
    (s.withMem m).busAnswer q = s.busAnswer q := by
  cases ht : busTarget s.bus q with
  | cell n => rw [s.busAnswer_cell q n ht, (s.withMem m).busAnswer_cell q n ht, h.cellWord hq ht]
  | device n => simp [State.busAnswer, State.withMem, ht]
  | nothing => simp [State.busAnswer, State.withMem, ht]

/-! ### The fetch -/

theorem LooksAlike.fetchWord (h : LooksAlike s m) (hu : s.user = true) (a : Word) :
    (s.withMem m).fetchWord a = s.fetchWord a := by
  have hans : (s.withMem m).busAnswer (s.codeRequest a) = s.busAnswer (s.codeRequest a) := h.busAnswer hu
  have hstale : (s.withMem m).staleWords a = s.staleWords a := rfl
  have hreq : (s.withMem m).codeRequest a = s.codeRequest a := rfl
  have hdraws : (s.withMem m).draws = s.draws := rfl
  simp only [State.fetchWord, hstale, hreq, hans, hdraws]

theorem LooksAlike.afterFetch (h : LooksAlike s m) (hu : s.user = true) (a : Word) :
    (s.withMem m).afterFetch a = (s.afterFetch a).withMem m := by
  have hstale : (s.withMem m).staleWords a = s.staleWords a := rfl
  simp only [State.afterFetch, hstale, h.fetchWord hu]
  split <;> rfl

/-- The fetch of the second word starts from states that look alike too. -/
theorem LooksAlike.of_afterFetch (h : LooksAlike s m) (a : Word) : LooksAlike (s.afterFetch a) m := by
  obtain ⟨d, hd⟩ := s.afterFetch_effect a
  exact h.congr (by rw [hd]) (by rw [hd])

theorem State.afterFetch_user (s : State) (a : Word) : (s.afterFetch a).user = s.user := by
  obtain ⟨d, hd⟩ := s.afterFetch_effect a
  rw [hd]

theorem LooksAlike.fetchedInstr (h : LooksAlike s m) (hu : s.user = true) :
    (s.withMem m).fetchedInstr = s.fetchedInstr := by
  have hu' : (s.afterFetch s.pc).user = true := (s.afterFetch_user s.pc).trans hu
  have hpc : (s.withMem m).pc = s.pc := rfl
  have hmode : (s.withMem m).user = s.user := rfl
  simp only [State.fetchedInstr, State.fetchedWords, hpc, hmode, h.fetchWord hu, h.afterFetch hu,
    (h.of_afterFetch s.pc).fetchWord hu']

theorem LooksAlike.afterInstrFetch (h : LooksAlike s m) (hu : s.user = true) :
    (s.withMem m).afterInstrFetch = s.afterInstrFetch.withMem m := by
  have hu' : (s.afterFetch s.pc).user = true := (s.afterFetch_user s.pc).trans hu
  have hpc : (s.withMem m).pc = s.pc := rfl
  simp only [State.afterInstrFetch, hpc, h.fetchWord hu, h.afterFetch hu, (h.of_afterFetch s.pc).afterFetch hu']
  split <;> rfl

/-! ### The operations -/

theorem State.setReg_withMem (s : State) (m : Memory) (x : Reg) (v : Word) :
    (s.withMem m).setReg x v = (s.setReg x v).withMem m := by
  cases x <;> rfl

theorem State.getReg_withMem (s : State) (m : Memory) : (s.withMem m).getReg = s.getReg :=
  funext fun r => State.getReg_congr rfl r

/-- A write in user mode leaves memories that look alike. -/
theorem LooksAlike.busWrite (h : LooksAlike s m) (q : BusRequest) (v : Word) :
    LooksAlike (s.busWrite q v) ((s.withMem m).busWrite q v).mem := by
  intro n hn
  by_cases ht : busTarget s.bus q = .cell n
  · rw [s.cellWord_busWrite_same q v n ht]
    exact (s.withMem m).cellWord_busWrite_same q v n ht
  · rw [s.cellWord_busWrite_other q v n ht]
    exact ((s.withMem m).cellWord_busWrite_other q v n ht).trans (h n hn)

/-- A store in user mode replaces words that look alike (R64). -/
theorem LooksAlike.overtaken (h : LooksAlike s m) {q : BusRequest} (hq : q.user = true) (next : Word) :
    (s.withMem m).overtaken q next = s.overtaken q next := by
  have hbus : (s.withMem m).bus = s.bus := rfl
  have hreq : (s.withMem m).codeRequest = s.codeRequest := rfl
  cases ht : busTarget s.bus q with
  | cell n => simp only [State.overtaken, hbus, hreq, ht, h.cellWord hq ht]
  | device n => simp only [State.overtaken, hbus, ht]
  | nothing => simp only [State.overtaken, hbus, ht]

theorem LooksAlike.store (h : LooksAlike s m) (hu : s.user = true) (x : Reg) (a len : Word) :
    (s.withMem m).store x a len =
      (s.store x a len).withMem ((s.withMem m).busWrite (s.dataRequest a) (s.getReg x)).mem := by
  have hold : (s.withMem m).overtaken ((s.withMem m).dataRequest a) ((s.withMem m).next len) =
      s.overtaken (s.dataRequest a) (s.next len) := h.overtaken hu _
  have hx : (s.withMem m).getReg x = s.getReg x := congrFun (s.getReg_withMem m) x
  simp only [State.store, hold, hx]
  rfl

/-- Every operation in user mode does the same in both states, and leaves memories that look alike. -/
theorem LooksAlike.run (h : LooksAlike s m) (hu : s.user = true) (k : Action) :
    ∃ m', k.run (s.withMem m) = (k.run s).withMem m' ∧ LooksAlike (k.run s) m' := by
  cases k with
  | breakWord x =>
    have hrun : (s.withMem m).breakWord x = (s.breakWord x).withMem m := by
      rw [s.breakWord_user x hu, (s.withMem m).breakWord_user x hu]
      rfl
    obtain ⟨hmem, hbus, -⟩ := s.breakWord_frame x
    exact ⟨m, hrun, h.congr hbus hmem⟩
  | jumpIfZero x d =>
    have hx : (s.withMem m).getReg x = s.getReg x := congrFun (s.getReg_withMem m) x
    by_cases hz : s.getReg x = 0x000
    · simp only [Action.run, hx, if_pos hz]
      exact ⟨m, rfl, h⟩
    · simp only [Action.run, hx, if_neg hz]
      exact ⟨m, rfl, h⟩
  | load x a len =>
    have hread : (s.withMem m).memRead (a s.getReg) = s.memRead (a s.getReg) :=
      h.busAnswer (q := s.dataRequest (a s.getReg)) hu
    have hafter : (s.withMem m).afterMemRead (a s.getReg) = (s.afterMemRead (a s.getReg)).withMem m := by
      simp only [State.afterMemRead, hread]
      rfl
    simp only [Action.run, State.load, State.getReg_withMem, hread, hafter, State.setReg_withMem]
    exact ⟨m, rfl, h.congr (by simp [State.afterMemRead]) (by simp [State.afterMemRead])⟩
  | store x a len =>
    simp only [Action.run, State.getReg_withMem]
    exact ⟨_, h.store hu x _ _, (h.busWrite _ _).congr rfl rfl⟩
  | jumpAndLink x a len =>
    simp only [Action.run, State.jumpAndLink, State.getReg_withMem, State.setReg_withMem]
    exact ⟨m, rfl, h.congr (by simp) (by simp)⟩
  | writeBack x v len =>
    simp only [Action.run, State.writeBack, State.getReg_withMem, State.setReg_withMem]
    exact ⟨m, rfl, h.congr (by simp) (by simp)⟩

end

/-- Settles O46: an interrupt reads no cell; otherwise both states fetch the same instruction, and its operation keeps
them alike. -/
theorem userModeCannotLearnHiddenCells : Obligations.UserModeCannotLearnHiddenCells := by
  intro s t m hu hr h hstep
  have halike : LooksAlike s.passBoundary m := h
  have hb : (s.withMem m).boundary = s.boundary := rfl
  have hpass : (s.withMem m).passBoundary = s.passBoundary.withMem m := rfl
  suffices hgoal : t.bus = s.bus ∧ ∃ m', step (s.withMem m) = .next (t.withMem m') ∧ LooksAlike t m' by
    obtain ⟨hbus, m', hm', hcells⟩ := hgoal
    exact ⟨m', hm', hbus ▸ hcells⟩
  cases hc : s.boundary with
  | reset => simp [s.boundary_eq_reset.1 hc] at hr
  | interrupt n =>
    rw [step_of_boundary_interrupt s n hc] at hstep
    cases hstep
    exact ⟨rfl, m, step_of_boundary_interrupt _ n (hb.trans hc), halike⟩
  | execute =>
    rw [step_of_boundary_execute s hc] at hstep
    cases hstep
    have hfetched : LooksAlike s.passBoundary.afterInstrFetch m := halike.congr (by simp) (by simp)
    rw [step_of_boundary_execute _ (hb.trans hc), hpass, halike.fetchedInstr hu, halike.afterInstrFetch hu]
    obtain ⟨m', hrun, hm'⟩ := hfetched.run (by simpa using hu) (actionOf s.passBoundary.fetchedInstr)
    exact ⟨by simp [Action.run_bus], m', by rw [hrun], hm'⟩

end Sys2Proof.Machine
end

section
/-! The pseudo-instructions (spec/48_pseudo_instructions.md): what a push and a pop do, and the expansions as pushes,
pops and writes one after the other. -/

namespace Sys2Proof.Machine

/-! ### Running an expansion -/

/-- Two expansions one after the other. -/
theorem execList_append {is : List Instr} {s t : State} (js : List Instr) (h : execList is s = .next t) :
    execList (is ++ js) s = execList js t := by
  induction is generalizing s with
  | nil =>
    cases h
    rfl
  | cons i rest ih =>
    rw [execList_cons i rest s _ (exec_eq_action i s)] at h
    rw [List.cons_append, execList_cons i (rest ++ js) s _ (exec_eq_action i s)]
    exact ih h

theorem execList_singleton (i : Instr) (s : State) : execList [i] s = exec i s := by
  rw [execList_cons i [] s _ (exec_eq_action i s), execList, exec_eq_action]

section

variable (s : State) (x : Reg) (v len : Word)

/-- A register after a write-back. -/
@[simp] theorem State.writeBack_getReg (r : Reg) :
    (s.writeBack x v len).getReg r = if r = x then (if x = .r0 then 0 else v) else s.getReg r := by
  by_cases h : r = x
  · subst h
    simp [State.writeBack]
  · simp [State.writeBack, h, State.getReg_setReg_other]

@[simp] theorem State.writeBack_pc : (s.writeBack x v len).pc = s.next len := by simp [State.writeBack]

@[simp] theorem State.writeBack_upc : (s.writeBack x v len).upc = s.upc := by simp [State.writeBack]

@[simp] theorem State.writeBack_user : (s.writeBack x v len).user = s.user := by simp [State.writeBack]

@[simp] theorem State.writeBack_bus : (s.writeBack x v len).bus = s.bus := by simp [State.writeBack]

@[simp] theorem State.writeBack_cellWord (n : Nat) : (s.writeBack x v len).cellWord n = s.cellWord n := by
  simp [State.writeBack]

end

/-! ### ADD24 -/

/-- The carry of a sum of two words: it is less than its second summand (R240, D3). -/
theorem carry_toNat (a b : Word) : (truthWord (wordLess (a + b) b)).toNat = (a.toNat + b.toNat) / 4096 := by
  have := a.isLt
  have := b.isLt
  rw [truthWord_wordLess, BitVec.toNat_add]
  split
  · rw [show ((0x001 : Word).toNat) = 1 from rfl]
    omega
  · rw [show ((0x000 : Word).toNat) = 0 from rfl]
    omega

/-- The state after the first five instructions of ADD24. -/
theorem execList_add24 (s : State) : execList (expand .add24) s =
    .next (((((s.writeBack .r3 (s.getReg .r3 + s.getReg .r5) 1).writeBack .r1 (s.getReg .r3 + s.getReg .r5) 1).writeBack
      .r1 (truthWord (wordLess (s.getReg .r3 + s.getReg .r5) (s.getReg .r5))) 1).writeBack
      .r2 (s.getReg .r2 + truthWord (wordLess (s.getReg .r3 + s.getReg .r5) (s.getReg .r5))) 1).writeBack
      .r2 (s.getReg .r2 + truthWord (wordLess (s.getReg .r3 + s.getReg .r5) (s.getReg .r5)) + s.getReg .r4) 1) := by
  simp [expand, add24Code, execList, exec_eq_action, actionOf, Action.run]

/-- Settles O49: the lower words are added first, the comparison with the second of them gives the carry, and the upper
words are added to it. -/
theorem add24ComputesSum : Obligations.Add24ComputesSum := by
  intro s
  refine ⟨_, execList_add24 s, ?_, ?_, fun r h1 h2 h3 => ?_, fun n => ?_, ⟨?_, ?_⟩, ?_⟩
  · have hc := carry_toNat (s.getReg .r3) (s.getReg .r5)
    have := (s.getReg .r2).isLt
    have := (s.getReg .r3).isLt
    have := (s.getReg .r4).isLt
    have := (s.getReg .r5).isLt
    simp only [State.writeBack_getReg, reduceCtorEq, if_true, if_false, BitVec.toNat_add, hc]
    omega
  · simp [carry_toNat]
  · simp [h1, h2, h3]
  · simp
  · simp
  · simp
  · simp only [State.writeBack_pc, State.next_one_toNat]
    omega

/-! ### Pushes and pops -/

/-- `t` is `s` after a push of the word `v` where the memory cell `n` answers at SP (R231). -/
structure Pushed (s t : State) (v : Word) (n : Nat) : Prop where
  cell : t.cellWord n = v
  otherCells : ∀ k, k ≠ n → t.cellWord k = s.cellWord k
  sp : t.getReg .r7 = s.getReg .r7 - 1
  regs : SameRegsBut .r7 s t
  mode : SameMode s t
  bus : t.bus = s.bus
  pc : t.pc.toNat = (s.pc.toNat + 2) % 4096

/-- `t` is `s` after a pop of the word `v` to register X (R232). -/
structure Popped (s t : State) (x : Reg) (v : Word) : Prop where
  loaded : Holds t x v
  sp : x ≠ .r7 → t.getReg .r7 = s.getReg .r7 + 1
  regs : ∀ r, r ≠ x → r ≠ .r7 → t.getReg r = s.getReg r
  cells : SameCells s t
  mode : SameMode s t
  bus : t.bus = s.bus
  pc : t.pc.toNat = (s.pc.toNat + 2) % 4096

/-- PSH RX pushes register X, the old value also where X is SP. -/
theorem execList_pshCode (x : Reg) {s : State} {n : Nat}
    (h : busTarget s.bus ⟨s.user, false, s.getReg .r7⟩ = .cell n) :
    ∃ t, execList (pshCode x) s = .next t ∧ Pushed s t (s.getReg x) n := by
  obtain ⟨hregs, hpc, ⟨hupc, huser⟩, ⟨hbus, -⟩, -, -, hcell⟩ := s.store_effect x (s.getReg .r7) 1
  rw [h] at hcell
  obtain ⟨hn, hothers⟩ := hcell
  refine ⟨(s.store x (s.getReg .r7) 1).writeBack .r7 ((s.store x (s.getReg .r7) 1).getReg .r7 - 1) 1, rfl, ?_⟩
  constructor
  case cell => exact (State.writeBack_cellWord _ _ _ _ n).trans hn
  case otherCells => exact fun k hk => (State.writeBack_cellWord _ _ _ _ k).trans (hothers k hk)
  case sp => exact (State.writeBack_getReg _ _ _ _ _).trans (congrArg (· - 1) (hregs .r7))
  case regs => exact fun r hr => (State.writeBack_getReg _ _ _ _ r).trans ((if_neg hr).trans (hregs r))
  case mode => exact ⟨(State.writeBack_upc _ _ _ _).trans hupc, (State.writeBack_user _ _ _ _).trans huser⟩
  case bus => exact (State.writeBack_bus _ _ _ _).trans hbus
  case pc =>
    have hstore : (s.store x (s.getReg .r7) 1).pc.toNat = (s.pc.toNat + 1) % 4096 := hpc
    rw [State.writeBack_pc, State.next_one_toNat]
    omega

/-- POP RX pops the word of the memory cell that answers at SP + 1. -/
theorem execList_popCode (x : Reg) {s : State} {n : Nat}
    (h : busTarget s.bus ⟨s.user, false, s.getReg .r7 + 1⟩ = .cell n) :
    ∃ t, execList (popCode x) s = .next t ∧ Popped s t x (s.cellWord n) := by
  obtain ⟨a, ha⟩ : ∃ a, a = s.writeBack .r7 (s.getReg .r7 + 1) 1 := ⟨_, rfl⟩
  have hsp : a.getReg .r7 = s.getReg .r7 + 1 := by rw [ha, State.writeBack_getReg, if_pos rfl, if_neg nofun]
  obtain ⟨v, hheld, hregs, hpc, ⟨hupc, huser⟩, hcells, ⟨hbus, -⟩, -, hread⟩ := a.load_effect x (s.getReg .r7 + 1) 1
  have hv : v = s.cellWord n := by
    subst ha
    rw [State.writeBack_bus, State.writeBack_user, h] at hread
    exact hread.1.trans (State.writeBack_cellWord _ _ _ _ n)
  refine ⟨a.load x (s.getReg .r7 + 1) 1, ?_, ?_⟩
  · rw [popCode, execList_cons (.addS .r7 1) _ s a (ha ▸ rfl), execList_singleton, exec_lwR, hsp]
  constructor
  case loaded => exact hv ▸ hheld
  case sp => exact fun hx => (hregs .r7 hx.symm).trans hsp
  case regs =>
    intro r hx h7
    rw [← (show a.getReg r = s.getReg r by rw [ha, State.writeBack_getReg, if_neg h7])]
    exact hregs r hx
  case cells => exact fun k => (hcells k).trans (ha ▸ State.writeBack_cellWord _ _ _ _ k)
  case mode =>
    subst ha
    exact ⟨hupc.trans (State.writeBack_upc _ _ _ _), huser.trans (State.writeBack_user _ _ _ _)⟩
  case bus => exact hbus.trans (ha ▸ State.writeBack_bus _ _ _ _)
  case pc =>
    have hadd : a.pc.toNat = (s.pc.toNat + 1) % 4096 := by rw [ha, State.writeBack_pc, State.next_one_toNat]
    rw [hadd] at hpc
    exact hpc.trans (by omega)

/-- Settles O47: PSH is a push. -/
theorem pushStoresThenLowersSp : Obligations.PushStoresThenLowersSp := by
  intro x s n h
  obtain ⟨t, ht, hp⟩ := execList_pshCode x h
  refine ⟨t, ht, hp.cell, hp.otherCells, ?_, hp.regs, hp.mode, hp.pc⟩
  rw [hp.sp]
  exact word_sub_toNat _ 1

/-- Settles O48: POP is a pop. -/
theorem popRaisesSpThenLoads : Obligations.PopRaisesSpThenLoads := by
  intro x s n sp hsp h
  obtain rfl : s.getReg .r7 + 1 = sp := by
    apply BitVec.eq_of_toNat_eq
    rw [hsp, BitVec.toNat_add]
    rfl
  obtain ⟨t, ht, hp⟩ := execList_popCode x h
  exact ⟨t, ht, hp.loaded, hp.sp, hp.regs, hp.cells, hp.mode, hp.pc⟩

section

variable {s t u : State} {x : Reg} {v w : Word} {k n : Nat}

/-- What a data request reaches is the same after a push. -/
theorem Pushed.busTarget (h : Pushed s t v n) (a : Word) :
    busTarget t.bus ⟨t.user, false, a⟩ = busTarget s.bus ⟨s.user, false, a⟩ := by
  rw [h.bus, h.mode.2]

/-- What a data request reaches is the same after a pop. -/
theorem Popped.busTarget (h : Popped s t x v) (a : Word) :
    busTarget t.bus ⟨t.user, false, a⟩ = busTarget s.bus ⟨s.user, false, a⟩ := by
  rw [h.bus, h.mode.2]

theorem SameMode.trans (h : SameMode s t) (h' : SameMode t u) : SameMode s u :=
  ⟨h'.1.trans h.1, h'.2.trans h.2⟩

/-- A popped register other than R0 holds the word. -/
theorem Popped.getReg (h : Popped s t x v) (hx : x ≠ .r0) : t.getReg x = v :=
  h.loaded.trans (if_neg hx)

end

/-! ### DUP and SWAP -/

/-- Settles O50: a pop of the top word to AS and two pushes of AS, the first of them to the cell it was popped from. -/
theorem duplicateTopOfStack : Obligations.DuplicateTopOfStack := by
  intro s m n hm hn
  obtain ⟨a, hexec, ha⟩ := execList_popCode .r1 hm
  have hspa : a.getReg .r7 = s.getReg .r7 + 1 := ha.sp nofun
  have hAS : a.getReg .r1 = s.cellWord m := ha.getReg nofun
  obtain ⟨b, hexec', hb⟩ := execList_pshCode .r1 (s := a) (n := m) (by rw [ha.busTarget, hspa, hm])
  have hspb : b.getReg .r7 = s.getReg .r7 := by rw [hb.sp, hspa, add_sub_cancel_right]
  have hASb : b.getReg .r1 = s.cellWord m := (hb.regs .r1 nofun).trans hAS
  obtain ⟨t, hexec'', ht⟩ := execList_pshCode .r1 (s := b) (n := n) (by rw [hb.busTarget, ha.busTarget, hspb, hn])
  refine ⟨t, ?_, ?_, ht.cell.trans hASb, fun k hkm hkn => ?_, (ht.regs .r1 nofun).trans hASb, ?_, fun r h1 h7 => ?_,
    ha.mode.trans (hb.mode.trans ht.mode), ?_⟩
  · rw [expand, List.append_assoc, execList_append _ hexec, execList_append _ hexec', hexec'']
  · by_cases hmn : m = n
    · rw [hmn, ht.cell, hASb, hmn]
    · rw [ht.otherCells m hmn, hb.cell, hAS]
  · rw [ht.otherCells k hkn, hb.otherCells k hkm, ha.cells k]
  · rw [ht.sp, hspb, sub_add_cancel]
  · rw [ht.regs r h7, hb.regs r h7, ha.regs r h1 h7]
  · have := ha.pc
    have := hb.pc
    have := ht.pc
    omega

/-- Settles O51: two pops to AX and BX, and pushes of AX to the second cell and of BX to the first. -/
theorem swapTopOfStack : Obligations.SwapTopOfStack := by
  intro s m n hmn hm hn
  obtain ⟨a, hexecA, ha⟩ := execList_popCode .r2 hm
  have hspa : a.getReg .r7 = s.getReg .r7 + 1 := ha.sp nofun
  obtain ⟨b, hexecB, hb⟩ := execList_popCode .r3 (s := a) (n := n) (by
    rw [ha.busTarget, hspa, add_assoc]
    exact hn)
  have hspb : b.getReg .r7 = s.getReg .r7 + 2 := by
    rw [hb.sp nofun, hspa, add_assoc]
    rfl
  have hAX : b.getReg .r2 = s.cellWord m := (hb.regs .r2 nofun nofun).trans (ha.getReg nofun)
  have hBX : b.getReg .r3 = s.cellWord n := (hb.getReg nofun).trans (ha.cells n)
  obtain ⟨c, hexecC, hc⟩ := execList_pshCode .r2 (s := b) (n := n) (by rw [hb.busTarget, ha.busTarget, hspb, hn])
  have hspc : c.getReg .r7 = s.getReg .r7 + 1 := by
    rw [hc.sp, hspb, add_sub_assoc]
    rfl
  obtain ⟨t, hexecT, ht⟩ := execList_pshCode .r3 (s := c) (n := m) (by
    rw [hc.busTarget, hb.busTarget, ha.busTarget, hspc, hm])
  refine ⟨t, ?_, ?_, ?_, fun k hkm hkn => ?_, ?_, ?_, fun r h2 h3 => ?_,
    ha.mode.trans (hb.mode.trans (hc.mode.trans ht.mode)), ?_⟩
  · rw [expand, List.append_assoc, List.append_assoc, execList_append _ hexecA, execList_append _ hexecB,
      execList_append _ hexecC, hexecT]
  · rw [ht.cell, hc.regs .r3 nofun, hBX]
  · rw [ht.otherCells n hmn.symm, hc.cell, hAX]
  · rw [ht.otherCells k hkm, hc.otherCells k hkn, hb.cells k, ha.cells k]
  · rw [ht.regs .r2 nofun, hc.regs .r2 nofun, hAX]
  · rw [ht.regs .r3 nofun, hc.regs .r3 nofun, hBX]
  · by_cases h7 : r = .r7
    · rw [h7, ht.sp, hspc, add_sub_cancel_right]
    · rw [ht.regs r h7, hc.regs r h7, hb.regs r h3 h7, ha.regs r h2 h7]
  · have := ha.pc
    have := hb.pc
    have := hc.pc
    have := ht.pc
    omega

/-! ### ENTER and EXIT -/

/-- What ENTER #Y leaves, where two memory cells answer at SP and SP - 1 (R235). -/
structure Entered (s t : State) (y : Word) (m n : Nat) : Prop where
  savedAS : t.cellWord m = s.getReg .r1
  savedBP : t.cellWord n = s.getReg .r6
  otherCells : ∀ k, k ≠ m → k ≠ n → t.cellWord k = s.cellWord k
  bp : t.getReg .r6 = s.getReg .r7 - 2
  sp : t.getReg .r7 = s.getReg .r7 - 2 - y
  regs : ∀ r, r ≠ .r6 → r ≠ .r7 → t.getReg r = s.getReg r
  mode : SameMode s t
  pc : t.pc.toNat = (s.pc.toNat + if y.toNat < 8 then 6 else 7) % 4096

/-- ENTER #Y is a push of AS, a push of BP, a move of SP to BP, and SP lowered by Y. -/
theorem execList_enter {s : State} (y : Word) {m n : Nat} (hmn : m ≠ n)
    (hm : busTarget s.bus ⟨s.user, false, s.getReg .r7⟩ = .cell m)
    (hn : busTarget s.bus ⟨s.user, false, s.getReg .r7 - 1⟩ = .cell n) :
    ∃ t, execList (expand (.enter y)) s = .next t ∧ Entered s t y m n := by
  obtain ⟨a, hexecA, ha⟩ := execList_pshCode .r1 hm
  obtain ⟨b, hexecB, hb⟩ := execList_pshCode .r6 (s := a) (n := n) (by rw [ha.busTarget, ha.sp, hn])
  have hspb : b.getReg .r7 = s.getReg .r7 - 2 := by
    rw [hb.sp, ha.sp, sub_sub]
    rfl
  have hexec : execList [.mvR .r6 .r7, makeRoom y] b = .next ((b.writeBack .r6 (b.getReg .r7) 1).writeBack .r7
      (b.getReg .r7 - y) (BitVec.ofNat 12 (if y.toNat < 8 then 1 else 2))) := by
    rw [execList_cons (.mvR .r6 .r7) _ b _ rfl, execList_singleton, exec_makeRoom, State.writeBack_getReg,
      if_neg nofun]
  have hall : execList (expand (.enter y)) s = execList [.mvR .r6 .r7, makeRoom y] b := by
    rw [expand, List.append_assoc, execList_append _ hexecA, execList_append _ hexecB]
  refine ⟨_, hall.trans hexec, ?_⟩
  constructor
  case savedAS => simp only [State.writeBack_cellWord, hb.otherCells m hmn, ha.cell]
  case savedBP => simp only [State.writeBack_cellWord, hb.cell, ha.regs .r6 nofun]
  case otherCells =>
    intro k hkm hkn
    simp only [State.writeBack_cellWord, hb.otherCells k hkn, ha.otherCells k hkm]
  case bp => simp [hspb]
  case sp => simp [hspb]
  case regs =>
    intro r h6 h7
    simp [h6, h7, hb.regs r h7, ha.regs r h7]
  case mode =>
    obtain ⟨hupc, huser⟩ := ha.mode.trans hb.mode
    exact ⟨by simp [hupc], by simp [huser]⟩
  case pc =>
    have := ha.pc
    have := hb.pc
    rw [State.writeBack_pc, State.next_toNat, State.writeBack_pc, State.next_one_toNat]
    split <;> omega

/-- EXIT is a move of BP to SP, a pop to BP, a pop to AS and a jump to AS (R236). -/
theorem execList_exit {b : State} {m n : Nat} {sp : Word} (hbp : b.getReg .r6 = sp - 2)
    (hm : busTarget b.bus ⟨b.user, false, sp⟩ = .cell m) (hn : busTarget b.bus ⟨b.user, false, sp - 1⟩ = .cell n) :
    ∃ u, execList (expand .exit) b = .next u ∧ u.getReg .r7 = sp ∧ u.getReg .r6 = b.cellWord n ∧
      u.getReg .r1 = b.cellWord m ∧ u.pc = b.cellWord m ∧
      (∀ r, r ≠ .r1 → r ≠ .r6 → r ≠ .r7 → u.getReg r = b.getReg r) ∧ SameCells b u ∧ SameMode b u := by
  obtain ⟨a, ha⟩ : ∃ a, a = b.writeBack .r7 (b.getReg .r6) 1 := ⟨_, rfl⟩
  have hspa : a.getReg .r7 + 1 = sp - 1 := by
    rw [ha, State.writeBack_getReg, if_pos rfl, if_neg nofun, hbp]
    bv_omega
  have htarget : ∀ q, busTarget a.bus ⟨a.user, false, q⟩ = busTarget b.bus ⟨b.user, false, q⟩ := by
    intro q
    rw [ha, State.writeBack_bus, State.writeBack_user]
  have hcells : ∀ k, a.cellWord k = b.cellWord k := fun k => by rw [ha, State.writeBack_cellWord]
  obtain ⟨c, hexecC, hc⟩ := execList_popCode .r6 (s := a) (n := n) (by rw [htarget, hspa, hn])
  have hspc : c.getReg .r7 = sp - 1 := (hc.sp nofun).trans hspa
  obtain ⟨d, hexecD, hd⟩ := execList_popCode .r1 (s := c) (n := m) (by
    rw [hc.busTarget, htarget, hspc, sub_add_cancel, hm])
  have hAS : d.getReg .r1 = b.cellWord m := by rw [hd.getReg nofun, hc.cells, hcells]
  obtain ⟨-, hregs, hpc, hmode, hcellsU, -⟩ := d.jumpAndLink_effect .r0 (d.getReg .r1) 1
  refine ⟨d.jumpAndLink .r0 (d.getReg .r1) 1, ?_, ?_, ?_, (hregs .r1 nofun).trans hAS, hpc.trans hAS,
    fun r h1 h6 h7 => ?_, fun k => ?_, ?_⟩
  · rw [expand, List.append_assoc, List.append_assoc, List.singleton_append,
      execList_cons (.mvR .r7 .r6) _ b a (ha ▸ rfl), execList_append _ hexecC, execList_append _ hexecD,
      execList_singleton, jrTo, exec_jrR]
  · exact (hregs .r7 nofun).trans (by rw [hd.sp nofun, hspc, sub_add_cancel])
  · exact (hregs .r6 nofun).trans (by rw [hd.regs .r6 nofun nofun, hc.getReg nofun, hcells])
  · by_cases h0 : r = .r0
    · rw [h0, State.getReg_r0, State.getReg_r0]
    · refine (hregs r h0).trans ?_
      rw [hd.regs r h1 h7, hc.regs r h6 h7, ha, State.writeBack_getReg, if_neg h7]
  · exact (hcellsU k).trans (by rw [hd.cells, hc.cells, hcells])
  · have hmodeA : SameMode b a := by
      subst ha
      exact ⟨State.writeBack_upc _ _ _ _, State.writeBack_user _ _ _ _⟩
    exact hmodeA.trans (hc.mode.trans (hd.mode.trans hmode))

/-- Settles O52: ENTER leaves the saved words in the two cells and BP two below the old SP, where EXIT pops them. -/
theorem enterExitRestoresFrame : Obligations.EnterExitRestoresFrame := by
  intro s y m n hmn hm hn
  obtain ⟨t, ht, he⟩ := execList_enter y hmn hm hn
  refine ⟨t, ht, he.savedAS, he.savedBP, he.otherCells, ?_, ?_, he.regs, he.mode, he.pc, ?_⟩
  · rw [he.bp, sub_add_cancel]
  · rw [he.sp]
    bv_omega
  · intro b hbp huser hbus hcm hcn
    obtain ⟨u, hu, hsp, hbp', hAS, hpc, hrest⟩ := execList_exit (hbp.trans he.bp)
      (by rw [hbus, huser, hm]) (by rw [hbus, huser, hn])
    exact ⟨u, hu, hsp, hbp'.trans (hcn.trans he.savedBP), hAS.trans (hcm.trans he.savedAS),
      hpc.trans (hcm.trans he.savedAS), hrest⟩

end Sys2Proof.Machine
end
